-- ==== Sys2Proof/Config.lean ====
section
/-! DEFINITION. The construction parameters of an engine instance (R7 to R12). Nothing here is a free value: the spec
leaves no value of the engine open (93_implementation_defined, Part 1). -/

namespace Sys2Proof

/-- The predictor kind selector (R7). -/
inductive Kind where
  | bimodal
  | gshare
deriving DecidableEq, Repr

/-- The tuple of parameters fixed when an instance is built (the table of 00_scope section 4). -/
structure Params where
  kind  : Kind
  /-- log2 of the table size (R8). -/
  m     : Nat
  /-- the width of the history register (R9). -/
  n     : Nat
  /-- the width of the address operand (R10). -/
  addrW : Nat
  /-- the width of each statistics counter (R11). -/
  statW : Nat
  /-- the width of the response data (R11). -/
  respW : Nat
deriving DecidableEq, Repr

/-- The valid tuples (R12); any other builds no engine. -/
abbrev Params.Valid (p : Params) : Prop :=
  3 ≤ p.addrW ∧ 1 ≤ p.m ∧ p.m + 2 ≤ p.addrW ∧ p.n ≤ p.m ∧ (p.kind = .bimodal → p.n = 0) ∧
    1 ≤ p.statW ∧ p.statW ≤ p.respW ∧ p.m ≤ p.respW ∧ p.n ≤ p.respW ∧ 2 ≤ p.respW

namespace Config

/-- The default of `ADDR_W` (R10). -/
def defaultAddrW : Nat := 32

/-- The default of `STAT_W` (R11). -/
def defaultStatW : Nat := 64

/-- The default of `RESP_W` (R11). -/
def defaultRespW : Nat := 64

/-- The instance whose reset state is `Machine.State.reset`. The widths are the spec's defaults; `KIND`, `M` and `N` have
none there: DESIGN CHOICE, log entry 1 (the tuple of the spec's program P3). Claims are over every tuple. -/
def built : Params :=
  { kind := .gshare, m := 4, n := 3, addrW := defaultAddrW, statW := defaultStatW, respW := defaultRespW }

end Config
end Sys2Proof
end

