-- ==== Sys2Proof/Syntax.lean ====
section
/-! DEFINITION. The eight commands (R63, R67), one constructor for each row of the opcode table. -/

namespace Sys2Proof

/-- The selector of RDSTAT (R66): `pred` is 0, `misp` is 1. -/
inductive StatSel where
  | pred
  | misp
deriving DecidableEq, Repr

/-- A command with its operands (R66, R67). An address or index is an unsigned number of `ADDR_W` bits; the width belongs to
the instance, so the bound stands in `Instr.wf` (log entry 7). `taken` is the actual outcome. -/
inductive Instr where
  /-- NOP (R127). -/
  | nop
  /-- PREDICT (R110). -/
  | predict (address : Nat)
  /-- UPDATE (R112). -/
  | update (address : Nat) (taken : Bool)
  /-- STEP (R125). -/
  | step (address : Nat) (taken : Bool)
  /-- INDEX (R105). -/
  | index (address : Nat)
  /-- READ (R94). -/
  | read (entry : Nat)
  /-- RDHIST (R116). -/
  | rdhist
  /-- RDSTAT (R126). -/
  | rdstat (sel : StatSel)
deriving DecidableEq, Repr

end Sys2Proof
end

