-- ==== Sys2Proof/WellFormed.lean ====
section
/-! DEFINITION. Which commands an engine with a given address width can be given. -/

namespace Sys2Proof

/-- The operand fits the `a` field: an `ADDR_W`-bit unsigned value (R66). READ's comparison with `2^M` is no matter of form
(R65). -/
def Instr.wf (addrW : Nat) : Instr → Bool
  | .nop => true
  | .predict address => decide (address < 2 ^ addrW)
  | .update address _ => decide (address < 2 ^ addrW)
  | .step address _ => decide (address < 2 ^ addrW)
  | .index address => decide (address < 2 ^ addrW)
  | .read entry => decide (entry < 2 ^ addrW)
  | .rdhist => true
  | .rdstat _ => true

end Sys2Proof
end

