-- ==== Sys2Proof/Word.lean ====
section
/-! DEFINITION. The word types of the engine. -/

namespace Sys2Proof

/-- One entry of the counter table: a 2-bit unsigned value (R21). -/
abbrev Counter := BitVec 2

/-- A command word of an engine whose address operand has `addrW` bits (R61). -/
abbrev CmdWord (addrW : Nat) := BitVec (addrW + 4)

end Sys2Proof
end

