-- ==== Sys2Proof/Decode.lean ====
section
/-! DEFINITION. Command words: decoding, total and rejecting by name (R61 to R68), and the encoder, from the same map. -/

namespace Sys2Proof

/-- The operations of the opcode map (R63). -/
inductive Op where
  | nop
  | predict
  | update
  | step
  | index
  | read
  | rdhist
  | rdstat
deriving DecidableEq, Repr

/-- The `op` field of each operation (R63). -/
def Op.code : Op → BitVec 3
  | .nop => 0b000
  | .predict => 0b001
  | .update => 0b010
  | .step => 0b011
  | .index => 0b100
  | .read => 0b101
  | .rdhist => 0b110
  | .rdstat => 0b111

/-- The operation of an `op` field: all eight values are assigned (R63). -/
def Op.ofCode (c : BitVec 3) : Op :=
  match c.getLsbD 2, c.getLsbD 1, c.getLsbD 0 with
  | false, false, false => .nop
  | false, false, true => .predict
  | false, true, false => .update
  | false, true, true => .step
  | true, false, false => .index
  | true, false, true => .read
  | true, true, false => .rdhist
  | true, true, true => .rdstat

/-- Why a command word is reserved (R64): a field that must be zero is not. Where both fields offend, the outcome bit is
named (log entry 9). -/
inductive ReservedForm where
  /-- The `t` field of an operation without an outcome operand is 1. -/
  | outcomeNotZero (op : Op)
  /-- The bits of the `a` field that the operation does not use are not all 0. -/
  | operandNotZero (op : Op)
deriving DecidableEq, Repr

section Fields
variable {addrW : Nat}

/-- Field `op`: bits `ADDR_W+3 : ADDR_W+1` (R61). -/
def cmdOp (w : CmdWord addrW) : BitVec 3 := w.extractLsb' (addrW + 1) 3

/-- Field `t`: bit `ADDR_W` (R61). -/
def cmdT (w : CmdWord addrW) : Bool := w.getLsbD addrW

/-- Field `a`: bits `ADDR_W-1 : 0`, read as an unsigned number (R61, R66). -/
def cmdA (w : CmdWord addrW) : Nat := (w.extractLsb' 0 addrW).toNat

/-- `cmd = {op, t, a}` (R61). -/
def packCmd (op : Op) (t : Bool) (a : Nat) : CmdWord addrW :=
  (op.code ++ (BitVec.ofBool t ++ BitVec.ofNat addrW a)).cast (by omega)

/-- A command whose `t` field must be 0 (R64). -/
def needZeroT (op : Op) (w : CmdWord addrW) (rest : Except ReservedForm Instr) : Except ReservedForm Instr :=
  if cmdT w then .error (.outcomeNotZero op) else rest

/-- A command some of whose `a` bits, here `unused`, must be 0 (R64). -/
def needZeroA (op : Op) (unused : Nat) (rest : Except ReservedForm Instr) : Except ReservedForm Instr :=
  if unused ≠ 0 then .error (.operandNotZero op) else rest

end Fields

/-- `sel = a[0]`: 0 selects PRED, 1 selects MISP (R66). -/
def StatSel.ofField (a : Nat) : StatSel := if a.testBit 0 then .misp else .pred

/-- The `a` field of RDSTAT for a selector (R66). -/
def StatSel.field : StatSel → Nat
  | .pred => 0
  | .misp => 1

/-- The decoder (R67): every word is one of the eight commands or reserved, whatever the state and the other parameters. -/
def decode (addrW : Nat) (w : CmdWord addrW) : Except ReservedForm Instr :=
  match Op.ofCode (cmdOp w) with
  | .nop => needZeroT .nop w (needZeroA .nop (cmdA w) (.ok .nop))
  | .predict => needZeroT .predict w (.ok (.predict (cmdA w)))
  | .update => .ok (.update (cmdA w) (cmdT w))
  | .step => .ok (.step (cmdA w) (cmdT w))
  | .index => needZeroT .index w (.ok (.index (cmdA w)))
  | .read => needZeroT .read w (.ok (.read (cmdA w)))
  | .rdhist => needZeroT .rdhist w (needZeroA .rdhist (cmdA w) (.ok .rdhist))
  | .rdstat => needZeroT .rdstat w (needZeroA .rdstat (cmdA w >>> 1) (.ok (.rdstat (StatSel.ofField (cmdA w)))))

/-- The operation of a command (R63). -/
def Instr.op : Instr → Op
  | .nop => .nop
  | .predict _ => .predict
  | .update _ _ => .update
  | .step _ _ => .step
  | .index _ => .index
  | .read _ => .read
  | .rdhist => .rdhist
  | .rdstat _ => .rdstat

/-- The `t` field of a command: the outcome operand, 0 where there is none (R63, R66). -/
def Instr.fieldT : Instr → Bool
  | .nop => false
  | .predict _ => false
  | .update _ taken => taken
  | .step _ taken => taken
  | .index _ => false
  | .read _ => false
  | .rdhist => false
  | .rdstat _ => false

/-- The `a` field of a command: the address, index or selector, 0 where there is none (R63, R66). -/
def Instr.fieldA : Instr → Nat
  | .nop => 0
  | .predict address => address
  | .update address _ => address
  | .step address _ => address
  | .index address => address
  | .read entry => entry
  | .rdhist => 0
  | .rdstat sel => sel.field

/-- The encoder: the word of a well-formed command (R61, R63). -/
def encode (addrW : Nat) (i : Instr) : CmdWord addrW :=
  packCmd i.op i.fieldT i.fieldA

/-- One row of the match and mask table for `ADDR_W = 32` (30_encoding section 4). -/
structure OpcodeRow where
  op    : Op
  value : BitVec 36
  mask  : BitVec 36
deriving DecidableEq, Repr

/-- The match and mask table for `ADDR_W = 32` (30_encoding section 4): `w` is the command when `w & mask = match`. -/
def opcodeTable : List OpcodeRow :=
  [ { op := .nop,     value := 0x000000000, mask := 0xFFFFFFFFF },
    { op := .predict, value := 0x200000000, mask := 0xF00000000 },
    { op := .update,  value := 0x400000000, mask := 0xE00000000 },
    { op := .step,    value := 0x600000000, mask := 0xE00000000 },
    { op := .index,   value := 0x800000000, mask := 0xF00000000 },
    { op := .read,    value := 0xA00000000, mask := 0xF00000000 },
    { op := .rdhist,  value := 0xC00000000, mask := 0xFFFFFFFFF },
    { op := .rdstat,  value := 0xE00000000, mask := 0xFFFFFFFFE } ]

/-- A row matches a word. -/
def OpcodeRow.hits (r : OpcodeRow) (w : BitVec 36) : Bool := w &&& r.mask == r.value

/-- The instruction read from an opcode-table word at the default `ADDR_W` (log entry 8): the low `nbits` bits of `w` are the
word; a number that needs more than `ADDR_W + 4` bits is no command word. -/
def decodeTableWord (nbits w : Nat) : Option Instr :=
  if w % 2 ^ nbits < 2 ^ (Config.defaultAddrW + 4) then
    (decode Config.defaultAddrW (BitVec.ofNat _ (w % 2 ^ nbits))).toOption
  else none

end Sys2Proof
end

