-- ==== Sys2Proof/Machine/State.lean ====
section
/-! DEFINITION. What the machine holds (R20 to R30), the ports (R60), the reasons a run ends, and the state after reset. -/

namespace Sys2Proof.Machine

/-- The counter table `T` (R22): (index, counter) pairs in one canonical form, indices strictly rising, no entry equal to
what an unlisted index reads as, which is the reset content 2 (R30; log entry 6). -/
abbrev Memory := List (Nat × Counter)

/-- The content of an unlisted entry: every counter is 2, "weakly taken", at creation (R22, R30). -/
def Memory.initial : Counter := 2

/-- The canonical form of a table of `2^m` entries. -/
def Memory.wf (m : Nat) : Memory → Bool
  | [] => true
  | (i, c) :: rest =>
    decide (i < 2 ^ m) && decide (c ≠ Memory.initial) && rest.all (fun x => decide (i < x.1)) && Memory.wf m rest

/-- The response of one executed command (R62). -/
structure Response (respW : Nat) where
  err  : Bool
  data : BitVec respW
deriving DecidableEq, Repr

/-- What the host drives on the ports in one cycle (R60). -/
structure PortIn (addrW : Nat) where
  rst      : Bool
  cmdValid : Bool
  cmd      : CmdWord addrW
deriving DecidableEq, Repr

/-- An engine built with the parameters `p`. -/
structure Engine (p : Params) where
  /-- `T`: the counter table (R22). -/
  table     : Memory
  /-- `GHR`: the global history register, newest outcome in bit `N-1` (R23). -/
  ghr       : BitVec p.n
  /-- `PRED`: predictions counted by STEP (R24). -/
  pred      : BitVec p.statW
  /-- `MISP`: mispredictions counted by STEP (R24). -/
  misp      : BitVec p.statW
  /-- `FAULT`: the sticky fault flag (R25). -/
  fault     : Bool
  /-- `FCAUSE`: the cause code (R25, R141). -/
  fcause    : BitVec 2
  /-- The model's own: reset has been applied since power-on (R166; log entry 4). -/
  beenReset : Bool
  /-- The response port in the cycle just executed; `none` is `resp_valid = 0` (R60, R71; log entry 3). -/
  resp      : Option (Response p.respW)
  /-- What the host will drive on the command port, next cycle first (R60, R72; log entry 2). -/
  inputs    : List (PortIn p.addrW)
deriving DecidableEq, Repr

/-- The machine: the construction parameters of the instance (fixed for its life, R8 to R12; log entry 1) and the engine. -/
structure State where
  params : Params
  engine : Engine params
deriving DecidableEq, Repr

/-- The causes of R141. Each is RECORDED in FAULT and FCAUSE and the machine goes on, faulted (R146): no step answers
`Outcome.fault`. `Safety.runOutcome` reads a faulted state as the fault outcome of R140 (log entry 5). Safe: nothing stops
that the spec lets go on. -/
inductive Fault where
  /-- Code 1: READ, operand `index >= 2^M` (R142). Safe. -/
  | indexOutOfRange
  /-- Code 2: any reserved command word (R143). Safe. -/
  | reservedCommand
  /-- Code 3: STEP, `PRED = 2^STAT_W - 1` (R144). Safe. -/
  | statOverflow
deriving DecidableEq, Repr

/-- Why a step has no meaning. -/
inductive Refusal where
  /-- An instruction without a meaning yet: raised by `exec`'s arms alone. Safe. -/
  | notModelled (mnemonic : String)
  /-- The parameters are no valid tuple, so no engine was built (R12, R145 (a)): raised by every step and command of such a
  state. Safe. -/
  | invalidParameters
  /-- A command before the first reset (R166): raised by every command of such a state. Safe. -/
  | commandBeforeReset
deriving DecidableEq, Repr

/-- The outcome of a step of this machine. -/
abbrev Result := Host.Outcome State Fault Refusal

/-- An engine right after reset (R30, R165), with nothing waiting on the command port. -/
def Engine.reset (p : Params) : Engine p :=
  { table := [], ghr := 0, pred := 0, misp := 0, fault := false, fcause := 0, beenReset := true, resp := none, inputs := [] }

/-- An instance with the parameters `p` right after reset. -/
def State.resetWith (p : Params) : State := ⟨p, Engine.reset p⟩

/-- The machine right after reset (R30), of the instance `Config.built` (log entry 1). -/
def State.reset : State := State.resetWith Config.built

/-- A command has a meaning here: the parameters built an engine (R12) and reset has been applied (R166); what R168 asks. -/
abbrev State.Ready (s : State) : Prop := s.params.Valid ∧ s.engine.beenReset = true

end Sys2Proof.Machine
end

