-- ==== Sys2Proof/Machine/Flags.lean ====
section
/-! DEFINITION. The counter's arithmetic and prediction (R90, R91), the history shift (R111), the cause codes (R141). -/

namespace Sys2Proof.Machine

/-- `taken_of(c)`: a counter of 2 or 3 predicts taken (R90). -/
def takenOf (c : Counter) : Bool := decide (2 ≤ c.toNat)

/-- `bump(c, t)`: up to 3 or down to 0, saturating, computed in integers (R91). -/
def bump (c : Counter) (taken : Bool) : Counter :=
  BitVec.ofNat 2 (if taken then min (c.toNat + 1) 3 else c.toNat - 1)

/-- `ghr_shift(h, t)`: right by one, the outcome enters at bit `N-1` (R111); of zero width when `N = 0` (90_conflicts
C1, C2). -/
def ghrShift {n : Nat} (h : BitVec n) (taken : Bool) : BitVec n :=
  (h >>> 1) ||| ((BitVec.ofBool taken).setWidth n <<< (n - 1))

/-- The cause codes of R141. -/
def Fault.code : Fault → BitVec 2
  | .indexOutOfRange => 1
  | .reservedCommand => 2
  | .statOverflow => 3

/-- The cause a code stands for; 0 stands for none (R141). -/
def Fault.ofCode? (c : BitVec 2) : Option Fault :=
  if c = 1 then some .indexOutOfRange
  else if c = 2 then some .reservedCommand
  else if c = 3 then some .statOverflow
  else none

end Sys2Proof.Machine
end

