-- ==== Sys2Proof/Machine/Operands.lean ====
section
/-! DEFINITION. How an address operand, and for gshare the history, selects a table entry (41_indexing). -/

namespace Sys2Proof.Machine

/-- `abits(address) = (address >> 2) & (2^M - 1)`: address bits `M+1` down to 2 (R100). -/
def abits (m : Nat) (address : Nat) : BitVec m := BitVec.ofNat m (address >>> 2)

/-- `idx_bimodal` (R101). -/
def idxBimodal (m : Nat) (address : Nat) : BitVec m := abits m address

/-- `idx_gshare`: the top `N` address bits folded with the history by XOR (R102). -/
def idxGshare (m : Nat) {n : Nat} (address : Nat) (h : BitVec n) : BitVec m :=
  abits m address ^^^ (h.setWidth m <<< (m - n))

/-- `idx`: the index an engine uses for an address when its history is `h` (R103). -/
def idx (p : Params) (h : BitVec p.n) (address : Nat) : BitVec p.m :=
  match p.kind with
  | .bimodal => idxBimodal p.m address
  | .gshare => idxGshare p.m address h

end Sys2Proof.Machine
end

