-- ==== Sys2Proof/Machine/Ops.lean ====
section
/-! DEFINITION. The named operations: the counter table (R92, R93), responses (R15, R62), raising a fault (R15, R149) and
leaving it by reset (R150, R165), and the dispatch every command goes through (R147). -/

namespace Sys2Proof.Machine

/-! ### The counter table -/

/-- `tbl_read(T, i)` (R92). -/
def tblRead : Memory → Nat → Counter
  | [], _ => Memory.initial
  | (j, c) :: rest, i => if j = i then c else tblRead rest i

/-- `T[i] <- c`, keeping the canonical form. The index is of the table's own width, so no store lies outside it. -/
def tblWrite {m : Nat} : Memory → BitVec m → Counter → Memory
  | [], i, c => if c = Memory.initial then [] else [(i.toNat, c)]
  | (j, d) :: rest, i, c =>
    if i.toNat < j then (if c = Memory.initial then (j, d) :: rest else (i.toNat, c) :: (j, d) :: rest)
    else if i.toNat = j then (if c = Memory.initial then rest else (i.toNat, c) :: rest)
    else (j, d) :: tblWrite rest i c

/-- `tbl_bump(T, i, t)`: the engine's only store (R93), at an index of type `BitVec M` (93_implementation_defined U10). -/
def tblBump {m : Nat} (t : Memory) (i : BitVec m) (taken : Bool) : Memory :=
  tblWrite t i (bump (tblRead t i.toNat) taken)

section Engine
variable {p : Params}

/-- The counter that `address` selects now. -/
def Engine.selected (e : Engine p) (address : Nat) : Counter := tblRead e.table (idx p e.ghr address).toNat

/-- The update of R112: bump the entry selected with the history as it is before the command, then shift the history. -/
def Engine.train (e : Engine p) (address : Nat) (taken : Bool) : Engine p :=
  { e with table := tblBump e.table (idx p e.ghr address) taken, ghr := ghrShift e.ghr taken }

/-! ### Responses and faults -/

/-- `respond(d)`: `err = 0`, the result zero-extended to `RESP_W` bits (R15, R62). -/
def Engine.respond (e : Engine p) {w : Nat} (d : BitVec w) : Engine p :=
  { e with resp := some { err := false, data := d.setWidth p.respW } }

/-- `respond()` (R15). -/
def Engine.respondNone (e : Engine p) : Engine p := e.respond (0 : BitVec 0)

/-- `err = 1` and the cause as it stands: the answer of a faulted engine to every command (R62, R146). -/
def Engine.respondFault (e : Engine p) : Engine p :=
  { e with resp := some { err := true, data := e.fcause.setWidth p.respW } }

/-- `raise <Cause>`: TAKING A FAULT, no state written but FAULT and FCAUSE (R15, R149). -/
def Engine.raise (e : Engine p) (c : Fault) : Engine p :=
  Engine.respondFault { e with fault := true, fcause := c.code }

/-- Reset (R165, R167): the only way out of a fault (R150). No response; what the host will drive next stays. -/
def Engine.applyReset (e : Engine p) : Engine p := { Engine.reset p with inputs := e.inputs }

/-- A cycle without a command: no state changes and `resp_valid = 0` (R71). -/
def Engine.idle (e : Engine p) : Engine p := { e with resp := none }

end Engine

/-! ### Dispatch -/

/-- The dispatch of R147 around one command: no engine, no meaning (R12); no meaning before reset (R166); a faulted engine
answers its cause and changes nothing (R146); otherwise the command's own rule, `body`. -/
def command (s : State) (body : Engine s.params → Engine s.params) : Result :=
  if ¬ s.params.Valid then .refused .invalidParameters
  else if s.engine.beenReset = false then .refused .commandBeforeReset
  else if s.engine.fault then .next { s with engine := s.engine.respondFault }
  else .next { s with engine := body s.engine }

end Sys2Proof.Machine
end

