-- ==== Sys2Proof/Machine/Index.lean ====
section
/-! DEFINITION. INDEX (41_indexing section 5). -/

namespace Sys2Proof.Machine

/-- INDEX: the index the engine would use for an address now (R105). -/
def execIndex (address : Nat) (s : State) : Result :=
  command s fun e => e.respond (idx s.params e.ghr address)

end Sys2Proof.Machine
end

