-- ==== Sys2Proof/Machine/Predict.lean ====
section
/-! DEFINITION. PREDICT, UPDATE, RDHIST (42_predict_update). -/

namespace Sys2Proof.Machine

/-- PREDICT: the direction the selected counter predicts (R110). -/
def execPredict (address : Nat) (s : State) : Result :=
  command s fun e => e.respond (BitVec.ofBool (takenOf (e.selected address)))

/-- UPDATE: train with the actual outcome (R112, R113). -/
def execUpdate (address : Nat) (taken : Bool) (s : State) : Result :=
  command s fun e => (e.train address taken).respondNone

/-- RDHIST: the history register (R116). -/
def execRdhist (s : State) : Result :=
  command s fun e => e.respond e.ghr

end Sys2Proof.Machine
end

