-- ==== Sys2Proof/Machine/Sequencer.lean ====
section
/-! DEFINITION. STEP, RDSTAT, NOP (43_sequencer_stats). -/

namespace Sys2Proof.Machine

section
variable {p : Params}

/-- STEP counts one prediction, and one misprediction when `miss` (R125, steps 2 and 3). -/
def Engine.count (e : Engine p) (miss : Bool) : Engine p :=
  { e with pred := e.pred + 1, misp := e.misp + (BitVec.ofBool miss).setWidth p.statW }

/-- `PRED = 2^STAT_W - 1` (R144). -/
def Engine.statFull (e : Engine p) : Bool := e.pred == BitVec.allOnes p.statW

end

/-- STEP: predict, compare, count, update (R125); nothing but the fault when PRED is full (R144). -/
def execStep (address : Nat) (taken : Bool) (s : State) : Result :=
  command s fun e =>
    let predicted := takenOf (e.selected address)
    let miss := predicted != taken
    if e.statFull then e.raise .statOverflow
    else ((e.train address taken).count miss).respond (BitVec.ofBool miss ++ BitVec.ofBool predicted)

/-- RDSTAT: a statistics counter (R126). -/
def execRdstat (sel : StatSel) (s : State) : Result :=
  command s fun e =>
    match sel with
    | .pred => e.respond e.pred
    | .misp => e.respond e.misp

/-- NOP: a response and nothing else (R127). -/
def execNop (s : State) : Result :=
  command s fun e => e.respondNone

end Sys2Proof.Machine
end

