-- ==== Sys2Proof/Machine/Table.lean ====
section
/-! DEFINITION. READ (40_counter_table section 3). -/

namespace Sys2Proof.Machine

/-- READ: one counter by its index; the comparison is on the whole operand (R94, R65). -/
def execRead (entry : Nat) (s : State) : Result :=
  command s fun e =>
    if 2 ^ s.params.m ≤ entry then e.raise .indexOutOfRange else e.respond (tblRead e.table entry)

end Sys2Proof.Machine
end

