-- ==== Sys2Proof/Machine/Dispatch.lean ====
section
/-! DEFINITION. One arm per command. -/

namespace Sys2Proof.Machine

def exec (i : Instr) (s : State) : Host.Outcome State Fault Refusal :=
  match i with
  | .nop => Sys2Proof.Machine.execNop s
  | .predict address => Sys2Proof.Machine.execPredict address s
  | .update address taken => Sys2Proof.Machine.execUpdate address taken s
  | .step address taken => Sys2Proof.Machine.execStep address taken s
  | .index address => Sys2Proof.Machine.execIndex address s
  | .read entry => Sys2Proof.Machine.execRead entry s
  | .rdhist => Sys2Proof.Machine.execRdhist s
  | .rdstat sel => Sys2Proof.Machine.execRdstat sel s

end Sys2Proof.Machine
end

