-- ==== Sys2Proof/Machine/Port.lean ====
section
/-! DEFINITION. The command port (R60, R71, R72): what one cycle does, and what the host can drive (R175). -/

namespace Sys2Proof.Machine

/-- Reset asserted for one edge (R175). -/
def PortIn.reset (addrW : Nat) : PortIn addrW := { rst := true, cmdValid := false, cmd := 0 }

/-- One command presented (R175). -/
def PortIn.command {addrW : Nat} (w : CmdWord addrW) : PortIn addrW := { rst := false, cmdValid := true, cmd := w }

/-- A cycle with nothing presented (R175). -/
def PortIn.idle (addrW : Nat) : PortIn addrW := { rst := false, cmdValid := false, cmd := 0 }

/-- One command word: decode and dispatch (R147). A reserved word raises ReservedCommand (R64, R143). -/
def runWord (s : State) (w : CmdWord s.params.addrW) : Result :=
  match decode s.params.addrW w with
  | .ok i => exec i s
  | .error _ => command s fun e => e.raise .reservedCommand

/-- The state once the host has driven its next cycle and `rest` is what it will drive after it. -/
def State.withInputs (s : State) (rest : List (PortIn s.params.addrW)) : State :=
  { s with engine := { s.engine with inputs := rest } }

/-- A cycle with nothing driven but `clk`. -/
def idleCycle (s : State) : Result := .next { s with engine := s.engine.idle }

/-- A cycle with `rst = 1` (R165, R167). -/
def resetCycle (s : State) : Result := .next { s with engine := s.engine.applyReset }

/-- One cycle (R71): reset wins over any command (R167); without a command nothing happens. -/
def cycle (s : State) (c : PortIn s.params.addrW) : Result :=
  if c.rst then resetCycle s
  else if c.cmdValid then runWord s c.cmd
  else idleCycle s

/-- One step: the next cycle the host drives, an idle one when it drives no more (R72, R132). No valid parameters, no engine
(R12). -/
def stepCycle (s : State) : Result :=
  if ¬ s.params.Valid then .refused .invalidParameters
  else
    match s.engine.inputs with
    | [] => idleCycle s
    | c :: rest => cycle (s.withInputs rest) c

/-- The port cycle that presents the opcode-table word `w` of `nbits` bits (log entry 8). -/
def tableCycle (addrW nbits w : Nat) : PortIn addrW := PortIn.command (BitVec.ofNat _ (w % 2 ^ nbits))

end Sys2Proof.Machine
end

