-- ==== Sys2Proof/Machine/Step.lean ====
section
/-! DEFINITION. The step function: one cycle of the command port (R71). -/

namespace Sys2Proof.Machine

/-- One step of the machine. -/
def step (s : State) : Host.Outcome State Fault Refusal := stepCycle s

/-- The machine with the command word of `nbits` bits `w` as the very next thing the host drives (log entry 2). -/
def State.withFetchWord (s : State) (nbits w : Nat) : State :=
  s.withInputs (tableCycle s.params.addrW nbits w :: s.engine.inputs)

end Sys2Proof.Machine
end

