-- ==== Sys2Proof/Machine/Asm.lean ====
section
/-! DEFINITION. The textual form of commands (R69), read and written. What R69 leaves open (white space, the case of
hexadecimal digits) is log entry 15. -/

namespace Sys2Proof.Machine

/-! ### Writing -/

/-- The decimal digits of `n`, before `acc`; `fuel` above the number of digits. -/
def decDigits : Nat → Nat → List Char → List Char
  | 0, _, acc => acc
  | fuel + 1, n, acc =>
    if n < 10 then Char.ofNat (48 + n) :: acc
    else decDigits fuel (n / 10) (Char.ofNat (48 + n % 10) :: acc)

/-- An unsigned number in decimal. -/
def showNat (n : Nat) : List Char := decDigits (n + 1) n []

/-- `T` is taken, `N` is not-taken (R69). -/
def showOutcome (taken : Bool) : List Char := if taken then ['T'] else ['N']

/-- A command as text (R69). -/
def showInstr : Instr → List Char
  | .nop => "NOP".toList
  | .predict address => "PREDICT ".toList ++ showNat address
  | .update address taken => "UPDATE ".toList ++ showNat address ++ ", ".toList ++ showOutcome taken
  | .step address taken => "STEP ".toList ++ showNat address ++ ", ".toList ++ showOutcome taken
  | .index address => "INDEX ".toList ++ showNat address
  | .read entry => "READ ".toList ++ showNat entry
  | .rdhist => "RDHIST".toList
  | .rdstat .pred => "RDSTAT PRED".toList
  | .rdstat .misp => "RDSTAT MISP".toList

/-! ### Reading -/

/-- White space within a line. -/
def isBlank (c : Char) : Bool := c == ' ' || c == '\t' || c == '\r'

/-- A word of a line, if any characters have been collected. -/
def flushWord (word : List Char) : List (List Char) := if word = [] then [] else [word]

/-- The words of a line up to a comment; a comma is a word of its own. `word` is what has been collected of the current
one. -/
def lineWords : List Char → List Char → List (List Char)
  | [], word => flushWord word
  | c :: cs, word =>
    if c = ';' then flushWord word
    else if isBlank c then flushWord word ++ lineWords cs []
    else if c = ',' then flushWord word ++ [','] :: lineWords cs []
    else lineWords cs (word ++ [c])

/-- The value of a digit, at most hexadecimal. -/
def digitVal (c : Char) : Option Nat :=
  if '0' ≤ c ∧ c ≤ '9' then some (c.toNat - 48)
  else if 'a' ≤ c ∧ c ≤ 'f' then some (c.toNat - 87)
  else if 'A' ≤ c ∧ c ≤ 'F' then some (c.toNat - 55)
  else none

/-- Digits of a base, most significant first, after a number `acc`. -/
def readDigits (base : Nat) : List Char → Nat → Option Nat
  | [], acc => some acc
  | c :: cs, acc =>
    match digitVal c with
    | some d => if d < base then readDigits base cs (acc * base + d) else none
    | none => none

/-- An unsigned number, hexadecimal with `0x` or decimal without (R69). -/
def readNat : List Char → Option Nat
  | [] => none
  | '0' :: 'x' :: [] => none
  | '0' :: 'x' :: c :: cs => readDigits 16 (c :: cs) 0
  | c :: cs => readDigits 10 (c :: cs) 0

/-- `T` or `N` (R69). -/
def readOutcome (w : List Char) : Option Bool :=
  if w = ['T'] then some true else if w = ['N'] then some false else none

/-- `PRED` or `MISP` (R69). -/
def readSel (w : List Char) : Option StatSel :=
  if w = "PRED".toList then some .pred else if w = "MISP".toList then some .misp else none

/-- The command of a line's words: the mnemonic, then its operands separated by a comma (R69). -/
def readWords : List (List Char) → Option Instr
  | [mn] =>
    if mn = "NOP".toList then some .nop
    else if mn = "RDHIST".toList then some .rdhist
    else none
  | [mn, x] =>
    if mn = "PREDICT".toList then (readNat x).map Instr.predict
    else if mn = "INDEX".toList then (readNat x).map Instr.index
    else if mn = "READ".toList then (readNat x).map Instr.read
    else if mn = "RDSTAT".toList then (readSel x).map Instr.rdstat
    else none
  | [mn, x, comma, o] =>
    if comma = [','] then
      match readNat x, readOutcome o with
      | some address, some taken =>
        if mn = "UPDATE".toList then some (.update address taken)
        else if mn = "STEP".toList then some (.step address taken)
        else none
      | _, _ => none
    else none
  | _ => none

/-- One line: at most one command, none on an empty line or a comment (R69). -/
def readLine (line : List Char) : Option (List Instr) :=
  match lineWords line [] with
  | [] => some []
  | ws => (readWords ws).map fun i => [i]

/-- The lines of a text. `line` is what has been collected of the current one. -/
def textLines : List Char → List Char → List (List Char)
  | [], line => [line]
  | c :: cs, line => if c = '\n' then line :: textLines cs [] else textLines cs (line ++ [c])

/-- The commands of a sequence of lines. -/
def readLines : List (List Char) → Option (List Instr)
  | [] => some []
  | l :: ls =>
    match readLine l, readLines ls with
    | some is, some rest => some (is ++ rest)
    | _, _ => none

/-- A test program as text (R69). -/
def readProgram (text : String) : Option (List Instr) := readLines (textLines text.toList [])

/-- The command words of a test program, where every operand fits the instance's `a` field (R66). -/
def assemble (addrW : Nat) (text : String) : Option (List (CmdWord addrW)) :=
  match readProgram text with
  | some is => if is.all (Instr.wf addrW) then some (is.map (encode addrW)) else none
  | none => none

end Sys2Proof.Machine
end

