-- ==== Sys2Proof/Machine/Report.lean ====
section
/-! DEFINITION. What is handed to a reporting collaborator at the end of a run (R132): the table and the counts. -/

namespace Sys2Proof.Machine

/-- The final table: (index, value) pairs, index ascending from 0 (R42, R52). -/
def finalTable (s : State) : List (Nat × Counter) :=
  (List.range (2 ^ s.params.m)).map fun i => (i, tblRead s.engine.table i)

/-- The misprediction rate in percent, with no value when nothing was predicted (R131; log entry 14). -/
def mispredictionRate (s : State) : Option ℚ :=
  if s.engine.pred = 0 then none
  else some ((s.engine.misp.toNat : ℚ) / (s.engine.pred.toNat : ℚ) * 100)

end Sys2Proof.Machine
end

