-- ==== Sys2Proof/Machine/Run.lean ====
section
/-! DEFINITION. Building an instance (R12, R168), runs (R71, R129), and traces as command sequences (R70). -/

namespace Sys2Proof.Machine

/-- Choosing parameters (R175): a valid tuple gives an engine, which reset then sets up; an invalid one gives none (R12,
R168). -/
def State.build (p : Params) : Option State := if p.Valid then some (State.resetWith p) else none

/-- The host will drive these cycles after what it already will. -/
def State.queue (s : State) (cs : List (PortIn s.params.addrW)) : State := s.withInputs (s.engine.inputs ++ cs)

/-- The host will present these commands, one a cycle. -/
def State.queueCommands (s : State) (is : List Instr) : State :=
  s.queue (is.map fun i => PortIn.command (encode s.params.addrW i))

/-- A run of `k` port cycles, up to the first step that has no next state (R71). -/
def runSteps : Nat → State → Result
  | 0, s => .next s
  | k + 1, s =>
    match step s with
    | .next s' => runSteps k s'
    | .fault f => .fault f
    | .refused r => .refused r

/-- A run of commands: the fold of the command meanings over the host's finite sequence (R71, R129). -/
def runCommands : List Instr → State → Result
  | [], s => .next s
  | i :: is, s =>
    match exec i s with
    | .next s' => runCommands is s'
    | .fault f => .fault f
    | .refused r => .refused r

/-- The actual outcome a command records in the history: of UPDATE and STEP, and of no other (R23, R118). -/
def outcome? : Instr → Option Bool
  | .nop => none
  | .predict _ => none
  | .update _ taken => some taken
  | .step _ taken => some taken
  | .index _ => none
  | .read _ => none
  | .rdhist => none
  | .rdstat _ => none

/-- The outcomes a sequence of commands records, oldest first (R114). -/
def outcomes (is : List Instr) : List Bool := is.filterMap outcome?

/-- The command is a STEP, the only one that counts (R24). -/
def isStep : Instr → Bool
  | .nop => false
  | .predict _ => false
  | .update _ _ => false
  | .step _ _ => true
  | .index _ => false
  | .read _ => false
  | .rdhist => false
  | .rdstat _ => false

/-- One record of a trace, already decoded (R4 (b), R70). -/
structure TraceRecord where
  address : Nat
  outcome : Bool
deriving DecidableEq, Repr

/-- A trace is one STEP for each record, in record order (R70). -/
def traceCommands (records : List TraceRecord) : List Instr :=
  records.map fun r => .step r.address r.outcome

end Sys2Proof.Machine
end

