-- ==== Sys2Proof/Safety.lean ====
section
/-! DEFINITION. What counts as a safe run, in the terms claims use. -/

namespace Sys2Proof.Safety

open Sys2Proof.Machine

/-- A state that can be the final state of a successful run: not faulted (R140). -/
abbrev Successful (s : State) : Prop := s.engine.fault = false

/-- An outcome with a faulted state read as the fault outcome (R140, log entry 5). -/
def runOutcome (r : Result) : Result :=
  match r with
  | .next s =>
    if s.engine.fault then
      match Fault.ofCode? s.engine.fcause with
      | some c => .fault c
      | none => .next s
    else .next s
  | .fault f => .fault f
  | .refused x => .refused x

/-- What the spec says of every state a run from reset reaches. -/
structure Inv (s : State) : Prop where
  /-- The instance was built (R12, R31 (e)). -/
  valid : s.params.Valid
  /-- The run began with a reset (R166). -/
  beenReset : s.engine.beenReset = true
  /-- The table lists counters of the index domain, in canonical form (R22, R31 (a)). -/
  table : Memory.wf s.params.m s.engine.table = true
  /-- `MISP <= PRED` (R31 (c)). -/
  counts : s.engine.misp.toNat ≤ s.engine.pred.toNat
  /-- `FCAUSE = 0` if and only if `FAULT = 0` (R31 (d)). -/
  cause : s.engine.fcause = 0 ↔ s.engine.fault = false
  /-- A response reports FAULT, and its cause as it stands (R62, R146). -/
  response : ∀ r ∈ s.engine.resp, r.err = s.engine.fault ∧ (r.err = true → r.data = s.engine.fcause.setWidth s.params.respW)

end Sys2Proof.Safety
end

