-- ==== Sys2Proof/Certificates/Slice0/Obligations.lean ====
section
/-! DEFINITION. The statements for the provers. Each is about every instance (every tuple of parameters) and every state
that meets its premises. -/

open Sys2Proof Sys2Proof.Machine Sys2Proof.Safety

/-- An engine without history read as a bimodal one: the same contents under the other kind. -/
def Sys2Proof.Claims.asBimodal {p : Params} (e : Engine p) : Engine { p with kind := .bimodal } :=
  { table := e.table, ghr := e.ghr, pred := e.pred, misp := e.misp, fault := e.fault, fcause := e.fcause,
    beenReset := e.beenReset, resp := e.resp, inputs := e.inputs }

/-- The response `err = 0` with the result `v` (R62). -/
def Sys2Proof.Claims.answer (respW v : Nat) : Option (Response respW) := some { err := false, data := BitVec.ofNat respW v }

/-- The response `err = 1` with the cause code `v` (R62, R146). -/
def Sys2Proof.Claims.errAnswer (respW v : Nat) : Option (Response respW) := some { err := true, data := BitVec.ofNat respW v }

/-- The commands of R117 (a). -/
def Sys2Proof.Claims.ReadOnly (i : Instr) : Prop :=
  i = .nop ∨ (∃ a, i = .predict a) ∨ (∃ a, i = .index a) ∨ (∃ k, i = .read k) ∨ i = .rdhist ∨ ∃ sel, i = .rdstat sel

/-- The commands that train the predictor at an address: UPDATE and STEP. -/
def Sys2Proof.Claims.Trains (i : Instr) (address : Nat) (taken : Bool) : Prop :=
  i = .update address taken ∨ i = .step address taken

open Sys2Proof.Claims

/-! ### Reset and the ports -/

/-- R30: the reset value of every element, of every instance. -/
def Obligations.ResetGivesEveryElementItsValue : Prop :=
  ∀ p : Params, (∀ i, tblRead (State.resetWith p).engine.table i = 2) ∧ (State.resetWith p).engine.ghr = 0 ∧
    (State.resetWith p).engine.pred = 0 ∧ (State.resetWith p).engine.misp = 0 ∧
    (State.resetWith p).engine.fault = false ∧ (State.resetWith p).engine.fcause = 0

/-- R165, R167: a cycle with `rst = 1` puts every element of any instance at its reset value, whatever the state, the fault
flag and the command on the port; it gives no response. -/
def Obligations.ResetCycleRestoresEveryElement : Prop :=
  ∀ (s : State) (c : PortIn s.params.addrW) (rest : List (PortIn s.params.addrW)),
    s.params.Valid → s.engine.inputs = c :: rest → c.rst = true →
    ∃ e : Engine s.params, step s = .next ⟨s.params, e⟩ ∧ (∀ i, tblRead e.table i = 2) ∧ e.ghr = 0 ∧ e.pred = 0 ∧
      e.misp = 0 ∧ e.fault = false ∧ e.fcause = 0 ∧ e.resp = none ∧ e.inputs = rest

/-- R71, R72: an idle cycle, presented or not, changes no state and gives no response. -/
def Obligations.IdleCycleChangesNothing : Prop :=
  ∀ s : State, s.params.Valid →
    (s.engine.inputs = [] → step s = .next { s with engine := { s.engine with resp := none } }) ∧
    ∀ (c : PortIn s.params.addrW) (rest : List (PortIn s.params.addrW)), s.engine.inputs = c :: rest → c.rst = false →
      c.cmdValid = false → step s = .next { s with engine := { s.engine with resp := none, inputs := rest } }

/-- R71, R147: a step whose command word decodes to `i` is `exec i`, the cycle taken off what the host will drive. -/
def Obligations.StepRunsTheDecodedCommand : Prop :=
  ∀ (s : State) (c : PortIn s.params.addrW) (rest : List (PortIn s.params.addrW)) (i : Instr),
    s.params.Valid → s.engine.inputs = c :: rest → c.rst = false → c.cmdValid = true →
    decode s.params.addrW c.cmd = .ok i →
    step s = exec i { s with engine := { s.engine with inputs := rest } }

/-- R64, R143: a reserved word, from an unfaulted engine, sets FAULT and FCAUSE 2, answers 1/2 and changes nothing else. -/
def Obligations.ReservedWordRaisesReservedCommand : Prop :=
  ∀ (s : State) (c : PortIn s.params.addrW) (rest : List (PortIn s.params.addrW)) (r : ReservedForm),
    s.Ready → s.engine.fault = false → s.engine.inputs = c :: rest → c.rst = false → c.cmdValid = true →
    decode s.params.addrW c.cmd = .error r →
    step s = .next { s with engine := { s.engine with
      fault := true, fcause := 2, resp := errAnswer s.params.respW 2, inputs := rest } }

/-- R12, R145 (a), R166: an invalid tuple builds no engine and none of its states has a step; before the first reset no
command has a meaning, and a reset cycle gives it one (the model's choice of the field `beenReset`, log entry 4, and of
refusing a step of no engine, log entry 13). -/
def Obligations.NoEngineOrNoResetIsRefused : Prop :=
  (∀ p : Params, (State.build p = none ↔ ¬ p.Valid) ∧ (p.Valid → State.build p = some (State.resetWith p))) ∧
  (∀ (s : State) (i : Instr), ¬ s.params.Valid →
    exec i s = .refused .invalidParameters ∧ step s = .refused .invalidParameters) ∧
  (∀ (s : State) (i : Instr), s.params.Valid → s.engine.beenReset = false → exec i s = .refused .commandBeforeReset) ∧
  ∀ (s : State) (c : PortIn s.params.addrW) (rest : List (PortIn s.params.addrW)), s.params.Valid →
    s.engine.beenReset = false → s.engine.inputs = c :: rest →
    (c.rst = false → c.cmdValid = true → step s = .refused .commandBeforeReset) ∧
    (c.rst = true → ∃ e : Engine s.params, step s = .next ⟨s.params, e⟩ ∧ e.beenReset = true)

/-- R49, R62, R71: every step of a ready machine completes, the machine is still ready, with the same parameters, and there
is a response exactly when the cycle presented a command. -/
def Obligations.EveryStepCompletesAndEveryCommandIsAnswered : Prop :=
  ∀ s : State, s.Ready → ∃ e : Engine s.params, step s = .next ⟨s.params, e⟩ ∧ e.beenReset = true ∧
    (e.resp.isSome = true ↔ ∃ c rest, s.engine.inputs = c :: rest ∧ c.rst = false ∧ c.cmdValid = true)

/-- R31 (e): no step changes the parameters. -/
def Obligations.ParametersNeverChange : Prop :=
  ∀ s s' : State, step s = .next s' → s'.params = s.params

/-! ### Faults -/

/-- R146: a faulted engine answers 1/FCAUSE to every command and to every word, and changes nothing; and the command that
raises a fault, legal or reserved, writes nothing but FAULT and FCAUSE and answers 1/FCAUSE. -/
def Obligations.FaultIsPreciseAndFreezesTheEngine : Prop :=
  (∀ s : State, s.Ready → s.engine.fault = true →
    (∀ i : Instr, exec i s = .next { s with engine := { s.engine with
      resp := errAnswer s.params.respW s.engine.fcause.toNat } }) ∧
    ∀ (c : PortIn s.params.addrW) (rest : List (PortIn s.params.addrW)), s.engine.inputs = c :: rest → c.rst = false →
      c.cmdValid = true → step s = .next { s with engine := { s.engine with
        resp := errAnswer s.params.respW s.engine.fcause.toNat, inputs := rest } }) ∧
  ∀ s s' : State, s.engine.fault = false → step s = .next s' → s'.engine.fault = true →
    ∃ (f : Fault) (c : PortIn s.params.addrW) (rest : List (PortIn s.params.addrW)), s.engine.inputs = c :: rest ∧
      s' = { s with engine := { s.engine with
        fault := true, fcause := f.code, resp := errAnswer s.params.respW f.code.toNat, inputs := rest } }

/-- R146, R150: once faulted, an engine keeps `T`, `GHR`, `PRED`, `MISP`, FAULT and the first cause through any number of
cycles without a reset, whatever the host drives. -/
def Obligations.FaultedEngineIsFrozenUntilReset : Prop :=
  ∀ (k : Nat) (s : State), s.Ready → s.engine.fault = true → (∀ c ∈ s.engine.inputs.take k, c.rst = false) →
    ∃ e : Engine s.params, runSteps k s = .next ⟨s.params, e⟩ ∧ e.table = s.engine.table ∧
      e.ghr = s.engine.ghr ∧ e.pred = s.engine.pred ∧ e.misp = s.engine.misp ∧ e.fault = true ∧
      e.fcause = s.engine.fcause ∧ e.inputs = s.engine.inputs.drop k

/-- R25, R150: only reset clears FAULT. -/
def Obligations.OnlyResetClearsFault : Prop :=
  ∀ s s' : State, step s = .next s' → s.engine.fault = true → s'.engine.fault = false →
    ∃ c rest, s.engine.inputs = c :: rest ∧ c.rst = true

/-- R141 to R144, R147: from an unfaulted engine a command word faults exactly when it is reserved, a READ outside the table
or a STEP with PRED at its maximum, with the codes 2, 1 and 3; no other step faults. -/
def Obligations.FaultsAreExactlyTheThreeCauses : Prop :=
  ∀ (p : Params) (e e' : Engine p), e.fault = false → step ⟨p, e⟩ = .next ⟨p, e'⟩ →
    (e'.fault = true ↔ ∃ c rest, e.inputs = c :: rest ∧ c.rst = false ∧ c.cmdValid = true ∧
      (((decode p.addrW c.cmd).toOption = none ∧ e'.fcause = 2) ∨
       (∃ k, decode p.addrW c.cmd = .ok (.read k) ∧ 2 ^ p.m ≤ k ∧ e'.fcause = 1) ∨
       ∃ a t, decode p.addrW c.cmd = .ok (.step a t) ∧ e.pred.toNat = 2 ^ p.statW - 1 ∧ e'.fcause = 3))

/-- R140: read as the outcome of a run, a state that meets the invariant is a success exactly when FAULT is 0, and otherwise
the fault whose code FCAUSE holds. -/
def Obligations.FaultOutcomeIsTheRecordedCause : Prop :=
  ∀ s : State, Inv s →
    (Successful s → runOutcome (.next s) = .next s) ∧
    (¬ Successful s → ∃ c : Fault, s.engine.fcause = c.code ∧ runOutcome (.next s) = .fault c)

/-! ### Encoding -/

/-- Decoding an encoded well-formed command gives it back, at every address width. -/
def Obligations.DecodeOfEncodeIsTheCommand : Prop :=
  ∀ (addrW : Nat) (i : Instr), 1 ≤ addrW → i.wf addrW = true → decode addrW (encode addrW i) = .ok i

/-- Every command word has one meaning: encoding what a word decodes to gives the word back, and the command is
well-formed. -/
def Obligations.EncodeOfDecodeIsTheWord : Prop :=
  ∀ (addrW : Nat) (w : CmdWord addrW) (i : Instr), decode addrW w = .ok i → encode addrW i = w ∧ i.wf addrW = true

/-- R67: the decoder, case by case, with `op`, `t` and `a` cut from the word by arithmetic (R61); `none` is Reserved. -/
def Obligations.DecoderFollowsTheOpcodeMap : Prop :=
  ∀ (addrW : Nat) (w : CmdWord addrW) (op t a : Nat), 1 ≤ addrW →
    op = w.toNat / 2 ^ (addrW + 1) → t = w.toNat / 2 ^ addrW % 2 → a = w.toNat % 2 ^ addrW →
    op < 8 ∧
    (op = 0 → (decode addrW w).toOption = if t = 0 ∧ a = 0 then some .nop else none) ∧
    (op = 1 → (decode addrW w).toOption = if t = 0 then some (.predict a) else none) ∧
    (op = 2 → (decode addrW w).toOption = some (.update a (t == 1))) ∧
    (op = 3 → (decode addrW w).toOption = some (.step a (t == 1))) ∧
    (op = 4 → (decode addrW w).toOption = if t = 0 then some (.index a) else none) ∧
    (op = 5 → (decode addrW w).toOption = if t = 0 then some (.read a) else none) ∧
    (op = 6 → (decode addrW w).toOption = if t = 0 ∧ a = 0 then some .rdhist else none) ∧
    (op = 7 → (decode addrW w).toOption =
      if t = 0 ∧ a / 2 = 0 then some (.rdstat (if a = 0 then .pred else .misp)) else none)

/-- R64: the reserved encodings, as the rule lists them. -/
def Obligations.ReservedEncodingsAreExactlyThese : Prop :=
  ∀ (addrW : Nat) (w : CmdWord addrW), (decode addrW w).toOption = none ↔
    (cmdOp w = 0b000 ∧ (cmdT w = true ∨ cmdA w ≠ 0)) ∨
    ((cmdOp w = 0b001 ∨ cmdOp w = 0b100 ∨ cmdOp w = 0b101) ∧ cmdT w = true) ∨
    (cmdOp w = 0b110 ∧ (cmdT w = true ∨ cmdA w ≠ 0)) ∨
    (cmdOp w = 0b111 ∧ (cmdT w = true ∨ cmdA w / 2 ≠ 0))

/-- 30_encoding section 4: at `ADDR_W = 32` a row of the match and mask table hits a word exactly when the word decodes to a
command of the row's operation; so no word meets two rows, and a word that meets none is reserved. -/
def Obligations.MatchAndMaskTableIsTheDecoder : Prop :=
  (∀ (w : CmdWord 32), ∀ r ∈ opcodeTable, r.hits w = true ↔ ∃ i, decode 32 w = .ok i ∧ i.op = r.op) ∧
  ∀ (w : CmdWord 32), (∀ r ∈ opcodeTable, r.hits w = false) ↔ (decode 32 w).toOption = none

/-- Words the spec writes out (95_test_vectors 2.4 and 2.5, and programs P3 and P4 of part 3) decode to the commands it
names, and its reserved words to none. -/
def Obligations.WordsOfTheSpecDecode : Prop :=
  decodeTableWord 40 0x000000000 = some .nop ∧ decodeTableWord 40 0x200000010 = some (.predict 0x10) ∧
  decodeTableWord 40 0x400000104 = some (.update 0x104 false) ∧
  decodeTableWord 40 0x500400A3C = some (.update 0x400A3C true) ∧
  decodeTableWord 40 0x600000020 = some (.step 0x20 false) ∧ decodeTableWord 40 0x700400A3C = some (.step 0x400A3C true) ∧
  decodeTableWord 40 0x800400A3C = some (.index 0x400A3C) ∧ decodeTableWord 40 0xAFFFFFFFF = some (.read 0xFFFFFFFF) ∧
  decodeTableWord 40 0xC00000000 = some .rdhist ∧ decodeTableWord 40 0xE00000000 = some (.rdstat .pred) ∧
  decodeTableWord 40 0xE00000001 = some (.rdstat .misp) ∧ decodeTableWord 40 0x100000000 = none ∧
  decodeTableWord 40 0x000000001 = none ∧ decodeTableWord 40 0x300000010 = none ∧ decodeTableWord 40 0xE00000002 = none

/-- R69: a command written in the textual form is read back, whatever its operands (the writer's choice of decimal numbers
is the model's, log entry 15). -/
def Obligations.WrittenCommandIsReadBack : Prop :=
  ∀ i : Instr, readLine (showInstr i) = some [i]

/-! ### The pure functions -/

/-- R90, R91: the prediction of a counter and the saturating step, in integers. -/
def Obligations.CounterPredictsAndSaturates : Prop :=
  ∀ c : Counter, (takenOf c = true ↔ 2 ≤ c.toNat) ∧ takenOf c = c.getLsbD 1 ∧
    ((bump c true).toNat : Int) = min (c.toNat + 1) 3 ∧ ((bump c false).toNat : Int) = max ((c.toNat : Int) - 1) 0

/-- R95: the laws of `bump`, (a) to (f). -/
def Obligations.BumpLaws : Prop :=
  ∀ (c : Counter) (t : Bool), (bump c t).toNat ≤ 3 ∧ c.toNat ≤ (bump c true).toNat ∧ (bump c false).toNat ≤ c.toNat ∧
    (bump c true = c ↔ c = 3) ∧ (bump c false = c ↔ c = 0) ∧
    ((bump c t).toNat ≤ c.toNat + 1 ∧ c.toNat ≤ (bump c t).toNat + 1) ∧
    (bump (bump c true) false = if c = 3 then 2 else c) ∧ (bump (bump c false) true = if c = 0 then 1 else c) ∧
    bump (bump (bump c true) true) true = 3 ∧ bump (bump (bump c false) false) false = 0 ∧
    (takenOf (bump c t) ≠ takenOf c ↔ (c = 1 ∧ t = true) ∨ (c = 2 ∧ t = false))

/-- R93: a bump of a canonical table, at any of its indices, changes the indexed entry by `bump` and no other, and leaves
the table canonical, so that nothing outside it is written. -/
def Obligations.TableBumpChangesOneEntry : Prop :=
  ∀ (m : Nat) (t : Memory) (i : BitVec m) (taken : Bool), Memory.wf m t = true →
    tblRead (tblBump t i taken) i.toNat = bump (tblRead t i.toNat) taken ∧
    (∀ j, j ≠ i.toNat → tblRead (tblBump t i taken) j = tblRead t j) ∧ Memory.wf m (tblBump t i taken) = true

/-- R100: the address bits are `(address >> 2) & (2^M - 1)`, address bits `M+1 : 2`, and no other address bit has any
influence on any command that takes an address. -/
def Obligations.OnlyAddressBitsOfTheIndexMatter : Prop :=
  (∀ (m address : Nat), (abits m address).toNat = (address >>> 2) &&& (2 ^ m - 1) ∧
    ∀ i, i < m → (abits m address).getLsbD i = address.testBit (i + 2)) ∧
  ∀ (s : State) (a b : Nat) (t : Bool), (∀ i, i < s.params.m → a.testBit (i + 2) = b.testBit (i + 2)) →
    exec (.predict a) s = exec (.predict b) s ∧ exec (.update a t) s = exec (.update b t) s ∧
    exec (.step a t) s = exec (.step b t) s ∧ exec (.index a) s = exec (.index b) s

/-- R101, R103: the index of each kind, and the one expression that serves both. -/
def Obligations.IndexOfEachKind : Prop :=
  ∀ (p : Params) (h : BitVec p.n) (address : Nat), p.Valid →
    (p.kind = .bimodal → idx p h address = idxBimodal p.m address) ∧
    (p.kind = .gshare → idx p h address = idxGshare p.m address h) ∧
    (p.n = 0 → idxGshare p.m address h = idxBimodal p.m address) ∧
    idxBimodal p.m address = abits p.m address ∧
    (idx p h address).toNat = (abits p.m address).toNat ^^^ (h.toNat <<< (p.m - p.n))

/-- R102: history bit `k` meets index bit `M-N+k`; the low `M-N` index bits are the address bits. -/
def Obligations.GshareFoldsHistoryIntoTheTopBits : Prop :=
  ∀ (m n address : Nat) (h : BitVec n), n ≤ m →
    (∀ k, k < n → (idxGshare m address h).getLsbD (m - n + k) = (address.testBit (m - n + k + 2) ^^ h.getLsbD k)) ∧
    (∀ i, i < m - n → (idxGshare m address h).getLsbD i = address.testBit (i + 2)) ∧
    (idxGshare m address h).toNat = (abits m address).toNat ^^^ (h.toNat <<< (m - n))

/-- R104: a computed index is inside the table, in unbounded arithmetic too; PREDICT, UPDATE and INDEX never fault and
STEP never raises IndexOutOfRange. -/
def Obligations.ComputedIndexIsInRange : Prop :=
  (∀ (p : Params) (h : BitVec p.n) (address : Nat), p.Valid → h.toNat <<< (p.m - p.n) < 2 ^ p.m ∧
    (abits p.m address).toNat ^^^ (h.toNat <<< (p.m - p.n)) < 2 ^ p.m) ∧
  ∀ (p : Params) (e e' : Engine p) (a : Nat) (t : Bool), e.fault = false →
    (exec (.predict a) ⟨p, e⟩ = .next ⟨p, e'⟩ ∨ exec (.update a t) ⟨p, e⟩ = .next ⟨p, e'⟩ ∨
      exec (.index a) ⟨p, e⟩ = .next ⟨p, e'⟩ → e'.fault = false) ∧
    (exec (.step a t) ⟨p, e⟩ = .next ⟨p, e'⟩ → e'.fault = true → e'.fcause ≠ 1)

/-- R106: (a) no history, no folding; (b) under one history the fold is a bijection of the address bits; (c) two histories
select two entries; (d) the low bits are the address bits; (e) the index depends on address bits `M+1 : 2` alone. -/
def Obligations.IndexLaws : Prop :=
  (∀ (m n address : Nat), idxGshare m address (0 : BitVec n) = idxBimodal m address) ∧
  (∀ (m n a b : Nat) (h : BitVec n), idxGshare m a h = idxGshare m b h ↔ abits m a = abits m b) ∧
  (∀ (m n : Nat) (h : BitVec n) (q : BitVec m), ∃ a, idxGshare m a h = q) ∧
  (∀ (m n address : Nat) (h k : BitVec n), n ≤ m → (idxGshare m address h = idxGshare m address k ↔ h = k)) ∧
  (∀ (m n address : Nat) (h : BitVec n), n ≤ m →
    (idxGshare m address h).setWidth (m - n) = (abits m address).setWidth (m - n)) ∧
  ∀ (p : Params) (h : BitVec p.n) (a b : Nat), (∀ i, i < p.m → a.testBit (i + 2) = b.testBit (i + 2)) →
    idx p h a = idx p h b

/-- R111: the history shift as the formula, and bit by bit; of zero width it is 0. -/
def Obligations.HistoryShiftsRightAndInsertsAtTheTop : Prop :=
  ∀ (n : Nat) (h : BitVec n) (t : Bool),
    (1 ≤ n → (ghrShift h t).toNat = ((h.toNat >>> 1) ||| (t.toNat <<< (n - 1))) &&& (2 ^ n - 1)) ∧
    (1 ≤ n → (ghrShift h t).getLsbD (n - 1) = t) ∧
    (∀ i, i + 1 < n → (ghrShift h t).getLsbD i = h.getLsbD (i + 1)) ∧
    (n = 0 → (ghrShift h t).toNat = 0)

/-- R113: indexing after the shift would select another entry exactly when the shift changes the history. -/
def Obligations.ShiftingFirstWouldSelectAnotherEntry : Prop :=
  ∀ (p : Params) (h : BitVec p.n) (address : Nat) (t : Bool), p.Valid → p.kind = .gshare →
    (idx p (ghrShift h t) address ≠ idx p h address ↔ ghrShift h t ≠ h)

/-! ### The commands: each completes, with this result -/

/-- R127: NOP answers 0/0 and changes nothing; it is the all-zero word. -/
def Obligations.NopAnswersZero : Prop :=
  (∀ (addrW : Nat) (w : CmdWord addrW), decode addrW w = .ok .nop ↔ w = 0) ∧
  ∀ s : State, s.Ready → s.engine.fault = false →
    exec .nop s = .next { s with engine := { s.engine with resp := answer s.params.respW 0 } }

/-- R110: PREDICT answers whether the counter it selects is at least 2, and changes nothing; after reset it answers 1; and
repeated after any commands but UPDATE and STEP it gives the same answer, leaving the machine as after the first. -/
def Obligations.PredictAnswersTheSelectedCounter : Prop :=
  (∀ (addrW : Nat) (w : CmdWord addrW) (a : Nat),
    decode addrW w = .ok (.predict a) ↔ cmdOp w = 0b001 ∧ cmdT w = false ∧ cmdA w = a) ∧
  (∀ (s : State) (a : Nat), s.Ready → s.engine.fault = false →
    exec (.predict a) s = .next { s with engine := { s.engine with
      resp := answer s.params.respW
        (if 2 ≤ (tblRead s.engine.table (idx s.params s.engine.ghr a).toNat).toNat then 1 else 0) } }) ∧
  (∀ (p : Params) (a : Nat), p.Valid →
    exec (.predict a) (State.resetWith p) = .next ⟨p, { Engine.reset p with resp := answer p.respW 1 }⟩) ∧
  ∀ (p : Params) (e e1 e2 : Engine p) (a : Nat) (is : List Instr), (∀ i ∈ is, ReadOnly i) →
    exec (.predict a) ⟨p, e⟩ = .next ⟨p, e1⟩ → runCommands is ⟨p, e1⟩ = .next ⟨p, e2⟩ → e2.fault = false →
    exec (.predict a) ⟨p, e2⟩ = .next ⟨p, e1⟩

/-- R112: UPDATE bumps the entry that the history before the command selects, and shifts the outcome in; answers 0. -/
def Obligations.UpdateTrainsTheSelectedEntry : Prop :=
  (∀ (addrW : Nat) (w : CmdWord addrW) (a : Nat) (t : Bool),
    decode addrW w = .ok (.update a t) ↔ cmdOp w = 0b010 ∧ cmdT w = t ∧ cmdA w = a) ∧
  ∀ (s : State) (a : Nat) (t : Bool), s.Ready → s.engine.fault = false →
    exec (.update a t) s = .next { s with engine := { s.engine with
      table := tblBump s.engine.table (idx s.params s.engine.ghr a) t,
      ghr := ghrShift s.engine.ghr t,
      resp := answer s.params.respW 0 } }

/-- R125, R144: STEP predicts from the counter before its bump, compares, counts, and updates as UPDATE does; answers the
prediction in bit 0 and the misprediction in bit 1. With PRED at its maximum it raises StatOverflow and nothing else. That
MISP does not exceed PRED is R31 (c), which `StepKeepsTheInvariant` states. -/
def Obligations.StepPredictsComparesCountsUpdates : Prop :=
  (∀ (addrW : Nat) (w : CmdWord addrW) (a : Nat) (t : Bool),
    decode addrW w = .ok (.step a t) ↔ cmdOp w = 0b011 ∧ cmdT w = t ∧ cmdA w = a) ∧
  ∀ (s : State) (a : Nat) (t predicted miss : Bool), s.Ready → s.engine.fault = false →
    predicted = takenOf (tblRead s.engine.table (idx s.params s.engine.ghr a).toNat) → miss = (predicted != t) →
    (s.engine.pred.toNat ≠ 2 ^ s.params.statW - 1 → s.engine.misp.toNat ≤ s.engine.pred.toNat →
      exec (.step a t) s = .next { s with engine := { s.engine with
        table := tblBump s.engine.table (idx s.params s.engine.ghr a) t,
        ghr := ghrShift s.engine.ghr t,
        pred := s.engine.pred + 1,
        misp := s.engine.misp + (if miss then 1 else 0),
        resp := answer s.params.respW (predicted.toNat + 2 * miss.toNat) } }) ∧
    (s.engine.pred.toNat = 2 ^ s.params.statW - 1 →
      exec (.step a t) s = .next { s with engine := { s.engine with
        fault := true, fcause := 3, resp := errAnswer s.params.respW 3 } })

/-- R105: INDEX answers the index and changes nothing. -/
def Obligations.IndexAnswersTheIndex : Prop :=
  (∀ (addrW : Nat) (w : CmdWord addrW) (a : Nat),
    decode addrW w = .ok (.index a) ↔ cmdOp w = 0b100 ∧ cmdT w = false ∧ cmdA w = a) ∧
  ∀ (s : State) (a : Nat), s.Ready → s.engine.fault = false →
    exec (.index a) s = .next { s with engine := { s.engine with
      resp := answer s.params.respW (idx s.params s.engine.ghr a).toNat } }

/-- R94, R65: READ of an index inside the table answers the counter, and changes nothing; of any other index, compared
whole, raises IndexOutOfRange and changes nothing else. An entry that no command since reset has trained is 2. -/
def Obligations.ReadAnswersTheCounterOrFaults : Prop :=
  (∀ (addrW : Nat) (w : CmdWord addrW) (k : Nat),
    decode addrW w = .ok (.read k) ↔ cmdOp w = 0b101 ∧ cmdT w = false ∧ cmdA w = k) ∧
  (∀ (s : State) (k : Nat), s.Ready → s.engine.fault = false →
    (k < 2 ^ s.params.m → exec (.read k) s = .next { s with engine := { s.engine with
      resp := answer s.params.respW (tblRead s.engine.table k).toNat } }) ∧
    (2 ^ s.params.m ≤ k → exec (.read k) s = .next { s with engine := { s.engine with
      fault := true, fcause := 1, resp := errAnswer s.params.respW 1 } })) ∧
  ∀ (p : Params) (k : Nat) (is : List Instr) (e' : Engine p), runCommands is (State.resetWith p) = .next ⟨p, e'⟩ →
    (∀ (before after : List Instr) (i : Instr) (a : Nat) (t : Bool) (e : Engine p), is = before ++ i :: after →
      Trains i a t → runCommands before (State.resetWith p) = .next ⟨p, e⟩ → (idx p e.ghr a).toNat ≠ k) →
    tblRead e'.table k = 2

/-- R116: RDHIST answers the history register, 0 where it has no bits, and changes nothing. -/
def Obligations.RdhistAnswersTheHistory : Prop :=
  (∀ (addrW : Nat) (w : CmdWord addrW),
    decode addrW w = .ok .rdhist ↔ cmdOp w = 0b110 ∧ cmdT w = false ∧ cmdA w = 0) ∧
  ∀ s : State, s.Ready → s.engine.fault = false →
    exec .rdhist s = .next { s with engine := { s.engine with
      resp := answer s.params.respW s.engine.ghr.toNat } } ∧
    (s.params.kind = .bimodal ∨ s.params.n = 0 → s.engine.ghr.toNat = 0)

/-- R126: RDSTAT answers PRED or MISP, by its selector bit, and changes nothing; after reset both are 0. -/
def Obligations.RdstatAnswersTheSelectedCount : Prop :=
  (∀ (addrW : Nat) (w : CmdWord addrW), 1 ≤ addrW →
    (decode addrW w = .ok (.rdstat .pred) ↔ cmdOp w = 0b111 ∧ cmdT w = false ∧ cmdA w = 0) ∧
    (decode addrW w = .ok (.rdstat .misp) ↔ cmdOp w = 0b111 ∧ cmdT w = false ∧ cmdA w = 1)) ∧
  (∀ s : State, s.Ready → s.engine.fault = false →
    exec (.rdstat .pred) s = .next { s with engine := { s.engine with
      resp := answer s.params.respW s.engine.pred.toNat } } ∧
    exec (.rdstat .misp) s = .next { s with engine := { s.engine with
      resp := answer s.params.respW s.engine.misp.toNat } }) ∧
  ∀ p : Params, (State.resetWith p).engine.pred.toNat = 0 ∧ (State.resetWith p).engine.misp.toNat = 0

/-! ### Frames -/

/-- R117 (a): PREDICT, INDEX, READ, RDHIST, RDSTAT and NOP leave everything but the response port unchanged when they do
not fault; and where one faults, FAULT and FCAUSE too are all that changes (R15). -/
def Obligations.ReadOnlyCommandsChangeNothing : Prop :=
  ∀ (s s' : State) (i : Instr), ReadOnly i → s.engine.fault = false → exec i s = .next s' →
    (s'.engine.fault = false → ∃ r, s' = { s with engine := { s.engine with resp := r } }) ∧
    (s'.engine.fault = true →
      ∃ r c, s' = { s with engine := { s.engine with fault := true, fcause := c, resp := r } })

/-- R117 (b), R118, R44: what UPDATE changes: one entry, by at most 1, the history by R111, and the response port; every
other entry and every other element is as before. -/
def Obligations.UpdateFrame : Prop :=
  ∀ (p : Params) (e e' : Engine p) (a : Nat) (t : Bool), Memory.wf p.m e.table = true → e.fault = false →
    exec (.update a t) ⟨p, e⟩ = .next ⟨p, e'⟩ →
    (∀ j, j ≠ (idx p e.ghr a).toNat → tblRead e'.table j = tblRead e.table j) ∧
    tblRead e'.table (idx p e.ghr a).toNat = bump (tblRead e.table (idx p e.ghr a).toNat) t ∧
    (∀ j, (tblRead e'.table j).toNat ≤ (tblRead e.table j).toNat + 1 ∧
      (tblRead e.table j).toNat ≤ (tblRead e'.table j).toNat + 1) ∧
    e'.ghr = ghrShift e.ghr t ∧ e'.pred = e.pred ∧ e'.misp = e.misp ∧ e'.fault = e.fault ∧ e'.fcause = e.fcause ∧
    e'.beenReset = e.beenReset ∧ e'.inputs = e.inputs

/-- R125, R118, R44, R15: what STEP changes: where it does not fault, one entry, the history, and the two counts, each in
integers (the counts by 1 and by at most 1, from a state where MISP does not exceed PRED); where it faults, FAULT and FCAUSE
alone. Nothing else but the response port. -/
def Obligations.StepFrame : Prop :=
  ∀ (p : Params) (e e' : Engine p) (a : Nat) (t : Bool), Memory.wf p.m e.table = true → e.fault = false →
    e.misp.toNat ≤ e.pred.toNat → exec (.step a t) ⟨p, e⟩ = .next ⟨p, e'⟩ →
    (e'.fault = false →
      (∀ j, j ≠ (idx p e.ghr a).toNat → tblRead e'.table j = tblRead e.table j) ∧
      tblRead e'.table (idx p e.ghr a).toNat = bump (tblRead e.table (idx p e.ghr a).toNat) t ∧
      e'.ghr = ghrShift e.ghr t ∧ e'.pred.toNat = e.pred.toNat + 1 ∧
      e'.misp.toNat = e.misp.toNat + (takenOf (tblRead e.table (idx p e.ghr a).toNat) != t).toNat ∧
      e'.fcause = e.fcause) ∧
    (e'.fault = true → e'.table = e.table ∧ e'.ghr = e.ghr ∧ e'.pred = e.pred ∧ e'.misp = e.misp) ∧
    e'.beenReset = e.beenReset ∧ e'.inputs = e.inputs

/-! ### The whole machine -/

/-- R31 and R62: the invariant holds after reset, in every valid instance. -/
def Obligations.ResetMeetsTheInvariant : Prop :=
  (∀ p : Params, p.Valid → Inv (State.resetWith p)) ∧ Inv State.reset

/-- R31 and R62: every step keeps the invariant, from every state that meets it. -/
def Obligations.StepKeepsTheInvariant : Prop :=
  ∀ s s' : State, Inv s → step s = .next s' → Inv s'

/-- R128: STEP leaves `T` and `GHR` as PREDICT then UPDATE do, its `data[0]` is that PREDICT's answer, and what differs is
the two counts. -/
def Obligations.StepIsPredictThenUpdate : Prop :=
  ∀ (p : Params) (e : Engine p) (a : Nat) (t : Bool), p.Valid → e.beenReset = true → e.fault = false →
    e.pred.toNat < 2 ^ p.statW - 1 →
    ∃ (es ep eu : Engine p) (rs rp : Response p.respW),
      exec (.step a t) ⟨p, e⟩ = .next ⟨p, es⟩ ∧ exec (.predict a) ⟨p, e⟩ = .next ⟨p, ep⟩ ∧
      exec (.update a t) ⟨p, ep⟩ = .next ⟨p, eu⟩ ∧ es.table = eu.table ∧ es.ghr = eu.ghr ∧
      es.resp = some rs ∧ ep.resp = some rp ∧ rs.data.getLsbD 0 = rp.data.getLsbD 0 ∧
      es.fault = eu.fault ∧ es.fcause = eu.fcause ∧
      eu.pred = e.pred ∧ eu.misp = e.misp ∧ es.pred.toNat = e.pred.toNat + 1

/-- R114: after any commands without a fault, history bit `N-1-j` is the outcome of the `j`-th most recent UPDATE or STEP
(0 the most recent), and bits for which there was none are the old history moved down, zeros after reset. -/
def Obligations.HistoryHoldsTheMostRecentOutcomes : Prop :=
  (∀ (p : Params) (e e' : Engine p) (is : List Instr), runCommands is ⟨p, e⟩ = .next ⟨p, e'⟩ → e'.fault = false →
    ∀ j, j < p.n → e'.ghr.getLsbD (p.n - 1 - j) =
      if j < (outcomes is).length then (outcomes is).reverse.getD j false
      else e.ghr.getLsbD (p.n - 1 - (j - (outcomes is).length))) ∧
  ∀ (p : Params) (e' : Engine p) (is : List Instr), runCommands is (State.resetWith p) = .next ⟨p, e'⟩ →
    e'.fault = false → ∀ j, j < p.n → e'.ghr.getLsbD (p.n - 1 - j) = (outcomes is).reverse.getD j false

/-- R24, R130: over any commands without a fault PRED advances by the number of STEPs, MISP by at most as much, and both
stay at 0 after reset while no STEP is executed. -/
def Obligations.PredCountsTheSteps : Prop :=
  (∀ (s s' : State) (is : List Instr), s.engine.misp.toNat ≤ s.engine.pred.toNat → runCommands is s = .next s' →
    s'.engine.fault = false →
    s'.engine.pred.toNat = s.engine.pred.toNat + (is.filter isStep).length ∧
    s.engine.misp.toNat ≤ s'.engine.misp.toNat ∧
    s'.engine.misp.toNat ≤ s.engine.misp.toNat + (is.filter isStep).length) ∧
  ∀ (p : Params) (s' : State) (is : List Instr), runCommands is (State.resetWith p) = .next s' →
    (∀ i ∈ is, isStep i = false) → s'.engine.pred.toNat = 0 ∧ s'.engine.misp.toNat = 0

/-- R47, R71, R129: driving the encoded commands through the port, one a cycle, is the fold of their meanings in order. -/
def Obligations.QueuedCommandsRunInOrder : Prop :=
  ∀ (s : State) (is : List Instr), s.Ready → s.engine.inputs = [] → (∀ i ∈ is, i.wf s.params.addrW = true) →
    runSteps is.length (s.queueCommands is) = runCommands is s

/-- R117 (c): in a bimodal engine two commands that train different entries commute, but for the answer on the port, where
neither order faults. -/
def Obligations.BimodalTrainingOfDifferentEntriesCommutes : Prop :=
  ∀ (p : Params) (e e1 e2 : Engine p) (i j : Instr) (a b : Nat) (t u : Bool), p.kind = .bimodal →
    Memory.wf p.m e.table = true → abits p.m a ≠ abits p.m b → Trains i a t → Trains j b u →
    runCommands [i, j] ⟨p, e⟩ = .next ⟨p, e1⟩ → runCommands [j, i] ⟨p, e⟩ = .next ⟨p, e2⟩ →
    e1.fault = false → e2.fault = false → { e1 with resp := none } = { e2 with resp := none }

/-- R117 (e): a gshare engine with `N = 0` and the bimodal engine of the same contents and other parameters go through the
same states with the same responses, over any commands. -/
def Obligations.GshareWithoutHistoryIsBimodal : Prop :=
  ∀ (p : Params) (e : Engine p) (is : List Instr), p.kind = .gshare → p.n = 0 → p.Valid → e.beenReset = true →
    ∃ e' : Engine p, runCommands is ⟨p, e⟩ = .next ⟨p, e'⟩ ∧
      runCommands is ⟨{ p with kind := .bimodal }, asBimodal e⟩ = .next ⟨{ p with kind := .bimodal }, asBimodal e'⟩

/-- R129, R70, R24: from every ready, unfaulted state (that of reset among them) a trace of one STEP a record that PRED has
room for runs to its end without a fault; PRED advances by the number of records, and MISP by at most as much. That MISP does
not exceed PRED is R31 (c), which `StepKeepsTheInvariant` states. -/
def Obligations.TraceRunsToItsEndAndCountsEveryRecord : Prop :=
  ∀ (p : Params) (e : Engine p) (records : List TraceRecord), p.Valid → e.beenReset = true → e.fault = false →
    e.misp.toNat ≤ e.pred.toNat → e.pred.toNat + records.length < 2 ^ p.statW →
    ∃ e' : Engine p, runCommands (traceCommands records) ⟨p, e⟩ = .next ⟨p, e'⟩ ∧ e'.fault = false ∧
      e'.pred.toNat = e.pred.toNat + records.length ∧ e.misp.toNat ≤ e'.misp.toNat ∧
      e'.misp.toNat ≤ e.misp.toNat + records.length

/-! ### Reporting -/

/-- R42, R52: the final table is the pairs (index, counter) in ascending order, 0 to `2^M - 1`, and the counter of each is
what READ answers. -/
def Obligations.FinalTableIsReadInAscendingOrder : Prop :=
  ∀ s : State, (finalTable s).map Prod.fst = List.range (2 ^ s.params.m) ∧
    ∀ x ∈ finalTable s, s.Ready → s.engine.fault = false →
      exec (.read x.1) s = .next { s with engine := { s.engine with
        resp := answer s.params.respW x.2.toNat } }

/-- R131: the misprediction rate has a value exactly when PRED is not 0, and it is MISP over PRED times 100. -/
def Obligations.MispredictionRateIsPartial : Prop :=
  ∀ s : State, (mispredictionRate s = none ↔ s.engine.pred.toNat = 0) ∧
    ∀ q, mispredictionRate s = some q → q * s.engine.pred.toNat = s.engine.misp.toNat * 100
end

