-- ==== Sys2Proof/Laws/Arith.lean ====
section
/-! SUPPORT. The pure functions, bit by bit and as numbers. -/

namespace Sys2Proof.Machine

/-- A zero-extension is the number read again at the wider width. -/
theorem setWidth_eq_ofNat (w : Nat) {v : Nat} (x : BitVec v) : x.setWidth w = BitVec.ofNat w x.toNat := by
  apply BitVec.eq_of_toNat_eq
  simp

/-- A bit, zero-extended, is 0 or 1. -/
theorem ofBool_setWidth (w : Nat) (b : Bool) : (BitVec.ofBool b).setWidth w = BitVec.ofNat w b.toNat := by
  rw [setWidth_eq_ofNat]
  cases b <;> rfl

/-- The prediction is the counter's most significant bit. -/
theorem takenOf_eq_msb (c : Counter) : takenOf c = c.msb := by revert c; decide

theorem bump_toNat (c : Counter) (taken : Bool) :
    (bump c taken).toNat = if taken then min (c.toNat + 1) 3 else c.toNat - 1 := by revert c taken; decide

theorem abits_toNat (m address : Nat) : (abits m address).toNat = address / 4 % 2 ^ m := by
  simp [abits, Nat.shiftRight_eq_div_pow]

theorem abits_getLsbD (m address i : Nat) : (abits m address).getLsbD i = (decide (i < m) && address.testBit (i + 2)) := by
  simp [abits, BitVec.getLsbD_ofNat, Nat.testBit_shiftRight, Nat.add_comm]

/-- Index bit `i` of gshare: address bit `i + 2`, folded with history bit `i - (M - N)` where there is one (R102). -/
theorem idxGshare_getLsbD {m n : Nat} (address : Nat) (h : BitVec n) {i : Nat} (hi : i < m) :
    (idxGshare m address h).getLsbD i =
      (address.testBit (i + 2) ^^ (decide (m - n ≤ i) && h.getLsbD (i - (m - n)))) := by
  have hk : i - (m - n) < m := by omega
  unfold idxGshare
  rw [BitVec.getLsbD_xor, abits_getLsbD, BitVec.getLsbD_shiftLeft, BitVec.getLsbD_setWidth]
  by_cases h2 : i < m - n
  · simp [h2, hi, show ¬ m - n ≤ i by omega]
  · simp [h2, hi, hk, show m - n ≤ i by omega]

/-- With no history the two kinds use the same index (R103). -/
theorem idxGshare_zero (m : Nat) {n : Nat} (address : Nat) : idxGshare m address (0 : BitVec n) = idxBimodal m address := by
  simp [idxGshare, idxBimodal]

/-- History bit `i` after a shift: the outcome at the top, every other bit one place down (R111). -/
theorem ghrShift_getLsbD {n : Nat} (h : BitVec n) (taken : Bool) {i : Nat} (hi : i < n) :
    (ghrShift h taken).getLsbD i = if i + 1 = n then taken else h.getLsbD (i + 1) := by
  have hn : h.getLsbD n = false := by simp
  by_cases hlast : i + 1 = n
  · subst hlast
    simp [ghrShift, Nat.add_comm 1 i]
  · have h1 : i < n - 1 := by omega
    simp [ghrShift, hlast, h1, Nat.add_comm 1 i]

@[simp] theorem code_ne_zero (c : Fault) : c.code ≠ 0#2 := by cases c <;> decide

@[simp] theorem ofCode_code (c : Fault) : Fault.ofCode? c.code = some c := by cases c <;> decide

end Sys2Proof.Machine
end

