-- ==== Sys2Proof/Laws/Decode.lean ====
section
/-! SUPPORT. The fields of a command word: what packing puts there, and that the fields are the whole word. -/

namespace Sys2Proof

@[simp] theorem Op.ofCode_code (o : Op) : Op.ofCode o.code = o := by cases o <;> rfl

@[simp] theorem Op.code_ofCode (c : BitVec 3) : (Op.ofCode c).code = c := by revert c; decide

section
variable {addrW : Nat}

theorem packCmd_getLsbD (o : Op) (t : Bool) (a i : Nat) :
    (packCmd o t a : CmdWord addrW).getLsbD i =
      if i < addrW then a.testBit i else if i = addrW then t else o.code.getLsbD (i - (addrW + 1)) := by
  unfold packCmd
  rw [BitVec.getLsbD_cast, BitVec.getLsbD_append, BitVec.getLsbD_append]
  rcases Nat.lt_trichotomy i addrW with h | h | h
  · simp only [h, show i < 1 + addrW by omega, if_true, BitVec.getLsbD_ofNat, decide_true, Bool.true_and]
  · subst h
    simp
  · simp only [show ¬ i < addrW + 1 by omega, show ¬ i < addrW by omega, show i ≠ addrW by omega, if_false,
      Nat.add_comm 1 addrW]

@[simp] theorem cmdOp_packCmd (o : Op) (t : Bool) (a : Nat) : cmdOp (packCmd o t a : CmdWord addrW) = o.code := by
  apply BitVec.eq_of_getLsbD_eq
  intro i hi
  unfold cmdOp
  rw [BitVec.getLsbD_extractLsb', packCmd_getLsbD, if_neg (by omega), if_neg (by omega),
    show addrW + 1 + i - (addrW + 1) = i by omega, decide_eq_true hi, Bool.true_and]

@[simp] theorem cmdT_packCmd (o : Op) (t : Bool) (a : Nat) : cmdT (packCmd o t a : CmdWord addrW) = t := by
  unfold cmdT
  rw [packCmd_getLsbD, if_neg (by omega), if_pos rfl]

@[simp] theorem cmdA_packCmd (o : Op) (t : Bool) (a : Nat) : cmdA (packCmd o t a : CmdWord addrW) = a % 2 ^ addrW := by
  have h : (packCmd o t a : CmdWord addrW).extractLsb' 0 addrW = BitVec.ofNat addrW a := by
    apply BitVec.eq_of_getLsbD_eq
    intro i hi
    rw [BitVec.getLsbD_extractLsb', packCmd_getLsbD, Nat.zero_add, if_pos hi, BitVec.getLsbD_ofNat]
  unfold cmdA
  rw [h, BitVec.toNat_ofNat]

theorem cmdA_lt (w : CmdWord addrW) : cmdA w < 2 ^ addrW := (w.extractLsb' 0 addrW).isLt

/-- The three fields are the whole word. -/
theorem packCmd_fields (w : CmdWord addrW) : packCmd (Op.ofCode (cmdOp w)) (cmdT w) (cmdA w) = w := by
  apply BitVec.eq_of_getLsbD_eq
  intro i hi
  rw [packCmd_getLsbD, Op.code_ofCode]
  split_ifs with h1 h2
  · simp only [cmdA, BitVec.testBit_toNat, BitVec.getLsbD_extractLsb', Nat.zero_add, h1, decide_true, Bool.true_and]
  · rw [cmdT, h2]
  · rw [cmdOp, BitVec.getLsbD_extractLsb', decide_eq_true (by omega : i - (addrW + 1) < 3), Bool.true_and]
    congr 1
    omega

end

@[simp] theorem StatSel.ofField_field (s : StatSel) : StatSel.ofField s.field = s := by cases s <;> rfl

end Sys2Proof
end

