-- ==== Sys2Proof/Laws/Memory.lean ====
section
/-! SUPPORT. The counter table: read after write, the canonical form, equal reads are equal tables. -/

namespace Sys2Proof.Machine

@[simp] theorem tblRead_nil (i : Nat) : tblRead [] i = Memory.initial := rfl

theorem tblRead_cons (j : Nat) (c : Counter) (rest : Memory) (i : Nat) :
    tblRead ((j, c) :: rest) i = if j = i then c else tblRead rest i := rfl

theorem Memory.wf_cons {m i : Nat} {c : Counter} {rest : Memory} :
    Memory.wf m ((i, c) :: rest) = true ↔
      i < 2 ^ m ∧ c ≠ Memory.initial ∧ (∀ x ∈ rest, i < x.1) ∧ Memory.wf m rest = true := by
  simp [Memory.wf, and_assoc]

/-- An index below every listed one reads as the initial content. -/
theorem tblRead_of_lt {t : Memory} {i : Nat} (h : ∀ x ∈ t, i < x.1) : tblRead t i = Memory.initial := by
  induction t with
  | nil => rfl
  | cons x rest ih =>
    obtain ⟨j, c⟩ := x
    have hj : i < j := h (j, c) (by simp)
    rw [tblRead_cons, if_neg (by omega)]
    exact ih fun y hy => h y (by simp [hy])

/-- Where a table that lists only larger indices than `k` is written above `k`, it still does. -/
theorem lt_of_mem_tblWrite {m : Nat} {t : Memory} {i : BitVec m} {k : Nat} {c : Counter} (ht : ∀ x ∈ t, k < x.1)
    (hi : k < i.toNat) :
    ∀ x ∈ tblWrite t i c, k < x.1 := by
  induction t with
  | nil => unfold tblWrite; split <;> simp [hi]
  | cons y rest ih =>
    obtain ⟨j, d⟩ := y
    have hj : k < j := ht (j, d) (by simp)
    have hr : ∀ x ∈ rest, k < x.1 := fun x hx => ht x (by simp [hx])
    have hw := ih hr
    unfold tblWrite
    split_ifs <;> try simp only [List.forall_mem_cons]
    all_goals tauto

/-- A write keeps the canonical form. -/
theorem tblWrite_wf {m : Nat} {t : Memory} (ht : Memory.wf m t = true) (i : BitVec m) (c : Counter) :
    Memory.wf m (tblWrite t i c) = true := by
  induction t with
  | nil => unfold tblWrite; split <;> simp_all [Memory.wf, i.isLt]
  | cons y rest ih =>
    obtain ⟨j, d⟩ := y
    obtain ⟨hj, hd, hr, hw⟩ := Memory.wf_cons.1 ht
    unfold tblWrite
    split_ifs with h1 h2 h3 h4
    · exact ht
    · exact Memory.wf_cons.2 ⟨i.isLt, h2, by
        intro x hx
        rcases List.mem_cons.1 hx with rfl | hx
        · exact h1
        · exact h1.trans (hr x hx), ht⟩
    · exact hw
    · exact Memory.wf_cons.2 ⟨i.isLt, h4, fun x hx => h3 ▸ hr x hx, hw⟩
    · exact Memory.wf_cons.2 ⟨hj, hd, lt_of_mem_tblWrite hr (by omega), ih hw⟩

/-- What every entry of a canonical table reads as after a write. -/
theorem tblRead_tblWrite {m : Nat} {t : Memory} (ht : Memory.wf m t = true) (i : BitVec m) (j : Nat) (c : Counter) :
    tblRead (tblWrite t i c) j = if j = i.toNat then c else tblRead t j := by
  induction t with
  | nil => unfold tblWrite; grind [tblRead_nil, tblRead_cons]
  | cons y rest ih =>
    obtain ⟨k, d⟩ := y
    obtain ⟨_, _, hr, hw⟩ := Memory.wf_cons.1 ht
    have hlow : ∀ n, n ≤ k → tblRead rest n = Memory.initial := fun n hn =>
      tblRead_of_lt fun x hx => by have := hr x hx; omega
    have hrest := ih hw
    unfold tblWrite
    split_ifs <;> grind [tblRead_cons]

@[simp] theorem tblRead_tblWrite_same {m : Nat} {t : Memory} (ht : Memory.wf m t = true) (i : BitVec m) (c : Counter) :
    tblRead (tblWrite t i c) i.toNat = c := by
  rw [tblRead_tblWrite ht, if_pos rfl]

theorem tblRead_tblWrite_other {m : Nat} {t : Memory} (ht : Memory.wf m t = true) {i : BitVec m} {j : Nat}
    (h : j ≠ i.toNat) (c : Counter) :
    tblRead (tblWrite t i c) j = tblRead t j := by
  rw [tblRead_tblWrite ht, if_neg h]

/-- A bump keeps the canonical form. -/
theorem tblBump_wf {m : Nat} {t : Memory} (ht : Memory.wf m t = true) (i : BitVec m) (taken : Bool) :
    Memory.wf m (tblBump t i taken) = true := tblWrite_wf ht i _

/-- Canonical tables with equal reads are equal data. -/
theorem Memory.ext {m : Nat} {t u : Memory} (ht : Memory.wf m t = true) (hu : Memory.wf m u = true)
    (h : ∀ i, tblRead t i = tblRead u i) : t = u := by
  induction t generalizing u with
  | nil =>
    cases u with
    | nil => rfl
    | cons y rest =>
      obtain ⟨j, d⟩ := y
      have hj := h j
      rw [tblRead_nil, tblRead_cons, if_pos rfl] at hj
      exact absurd hj.symm (Memory.wf_cons.1 hu).2.1
  | cons x rest ih =>
    obtain ⟨i, c⟩ := x
    obtain ⟨_, hc, hr, hw⟩ := Memory.wf_cons.1 ht
    cases u with
    | nil =>
      have hi := h i
      rw [tblRead_nil, tblRead_cons, if_pos rfl] at hi
      exact absurd hi hc
    | cons y rest' =>
      obtain ⟨j, d⟩ := y
      obtain ⟨_, hd, hr', hw'⟩ := Memory.wf_cons.1 hu
      have hlow : ∀ n, n ≤ i → tblRead rest n = Memory.initial := fun n hn =>
        tblRead_of_lt fun x hx => by have := hr x hx; omega
      have hlow' : ∀ n, n ≤ j → tblRead rest' n = Memory.initial := fun n hn =>
        tblRead_of_lt fun x hx => by have := hr' x hx; omega
      have hi := h i
      have hj := h j
      rw [tblRead_cons, tblRead_cons, if_pos rfl] at hi
      rw [tblRead_cons, tblRead_cons, if_pos rfl] at hj
      have hij : i = j := by
        rcases Nat.lt_trichotomy i j with hlt | heq | hgt
        · rw [if_neg (by omega), hlow' i (by omega)] at hi
          exact absurd hi hc
        · exact heq
        · rw [if_neg (by omega), hlow j (by omega)] at hj
          exact absurd hj.symm hd
      subst hij
      rw [if_pos rfl] at hi
      subst hi
      congr 1
      refine ih hw hw' fun k => ?_
      rcases Nat.lt_or_ge i k with hk | hk
      · have := h k
        simpa [tblRead_cons, show i ≠ k by omega] using this
      · rw [hlow k hk, hlow' k hk]

end Sys2Proof.Machine
end

