-- ==== Sys2Proof/Laws/State.lean ====
section
/-! SUPPORT. What each update of the state leaves in each field. -/

namespace Sys2Proof.Machine

section
variable {p : Params}

/-! ### `Engine.respond` -/

@[simp] theorem Engine.respond_table (e : Engine p) {w : Nat} (d : BitVec w) :
    (e.respond d).table = e.table := rfl
@[simp] theorem Engine.respond_ghr (e : Engine p) {w : Nat} (d : BitVec w) :
    (e.respond d).ghr = e.ghr := rfl
@[simp] theorem Engine.respond_pred (e : Engine p) {w : Nat} (d : BitVec w) :
    (e.respond d).pred = e.pred := rfl
@[simp] theorem Engine.respond_misp (e : Engine p) {w : Nat} (d : BitVec w) :
    (e.respond d).misp = e.misp := rfl
@[simp] theorem Engine.respond_fault (e : Engine p) {w : Nat} (d : BitVec w) :
    (e.respond d).fault = e.fault := rfl
@[simp] theorem Engine.respond_fcause (e : Engine p) {w : Nat} (d : BitVec w) :
    (e.respond d).fcause = e.fcause := rfl
@[simp] theorem Engine.respond_beenReset (e : Engine p) {w : Nat} (d : BitVec w) :
    (e.respond d).beenReset = e.beenReset := rfl
@[simp] theorem Engine.respond_resp (e : Engine p) {w : Nat} (d : BitVec w) :
    (e.respond d).resp = some { err := false, data := d.setWidth p.respW } := rfl
@[simp] theorem Engine.respond_inputs (e : Engine p) {w : Nat} (d : BitVec w) :
    (e.respond d).inputs = e.inputs := rfl

/-! ### `Engine.respondNone` -/

@[simp] theorem Engine.respondNone_table (e : Engine p) :
    e.respondNone.table = e.table := rfl
@[simp] theorem Engine.respondNone_ghr (e : Engine p) :
    e.respondNone.ghr = e.ghr := rfl
@[simp] theorem Engine.respondNone_pred (e : Engine p) :
    e.respondNone.pred = e.pred := rfl
@[simp] theorem Engine.respondNone_misp (e : Engine p) :
    e.respondNone.misp = e.misp := rfl
@[simp] theorem Engine.respondNone_fault (e : Engine p) :
    e.respondNone.fault = e.fault := rfl
@[simp] theorem Engine.respondNone_fcause (e : Engine p) :
    e.respondNone.fcause = e.fcause := rfl
@[simp] theorem Engine.respondNone_beenReset (e : Engine p) :
    e.respondNone.beenReset = e.beenReset := rfl
@[simp] theorem Engine.respondNone_resp (e : Engine p) :
    e.respondNone.resp = some { err := false, data := (0 : BitVec 0).setWidth p.respW } := rfl
@[simp] theorem Engine.respondNone_inputs (e : Engine p) :
    e.respondNone.inputs = e.inputs := rfl

/-! ### `Engine.respondFault` -/

@[simp] theorem Engine.respondFault_table (e : Engine p) :
    e.respondFault.table = e.table := rfl
@[simp] theorem Engine.respondFault_ghr (e : Engine p) :
    e.respondFault.ghr = e.ghr := rfl
@[simp] theorem Engine.respondFault_pred (e : Engine p) :
    e.respondFault.pred = e.pred := rfl
@[simp] theorem Engine.respondFault_misp (e : Engine p) :
    e.respondFault.misp = e.misp := rfl
@[simp] theorem Engine.respondFault_fault (e : Engine p) :
    e.respondFault.fault = e.fault := rfl
@[simp] theorem Engine.respondFault_fcause (e : Engine p) :
    e.respondFault.fcause = e.fcause := rfl
@[simp] theorem Engine.respondFault_beenReset (e : Engine p) :
    e.respondFault.beenReset = e.beenReset := rfl
@[simp] theorem Engine.respondFault_resp (e : Engine p) :
    e.respondFault.resp = some { err := true, data := e.fcause.setWidth p.respW } := rfl
@[simp] theorem Engine.respondFault_inputs (e : Engine p) :
    e.respondFault.inputs = e.inputs := rfl

/-! ### `Engine.raise` -/

@[simp] theorem Engine.raise_table (e : Engine p) (c : Fault) :
    (e.raise c).table = e.table := rfl
@[simp] theorem Engine.raise_ghr (e : Engine p) (c : Fault) :
    (e.raise c).ghr = e.ghr := rfl
@[simp] theorem Engine.raise_pred (e : Engine p) (c : Fault) :
    (e.raise c).pred = e.pred := rfl
@[simp] theorem Engine.raise_misp (e : Engine p) (c : Fault) :
    (e.raise c).misp = e.misp := rfl
@[simp] theorem Engine.raise_fault (e : Engine p) (c : Fault) :
    (e.raise c).fault = true := rfl
@[simp] theorem Engine.raise_fcause (e : Engine p) (c : Fault) :
    (e.raise c).fcause = c.code := rfl
@[simp] theorem Engine.raise_beenReset (e : Engine p) (c : Fault) :
    (e.raise c).beenReset = e.beenReset := rfl
@[simp] theorem Engine.raise_resp (e : Engine p) (c : Fault) :
    (e.raise c).resp = some { err := true, data := c.code.setWidth p.respW } := rfl
@[simp] theorem Engine.raise_inputs (e : Engine p) (c : Fault) :
    (e.raise c).inputs = e.inputs := rfl

/-! ### `Engine.applyReset` -/

@[simp] theorem Engine.applyReset_table (e : Engine p) :
    e.applyReset.table = [] := rfl
@[simp] theorem Engine.applyReset_ghr (e : Engine p) :
    e.applyReset.ghr = 0 := rfl
@[simp] theorem Engine.applyReset_pred (e : Engine p) :
    e.applyReset.pred = 0 := rfl
@[simp] theorem Engine.applyReset_misp (e : Engine p) :
    e.applyReset.misp = 0 := rfl
@[simp] theorem Engine.applyReset_fault (e : Engine p) :
    e.applyReset.fault = false := rfl
@[simp] theorem Engine.applyReset_fcause (e : Engine p) :
    e.applyReset.fcause = 0 := rfl
@[simp] theorem Engine.applyReset_beenReset (e : Engine p) :
    e.applyReset.beenReset = true := rfl
@[simp] theorem Engine.applyReset_resp (e : Engine p) :
    e.applyReset.resp = none := rfl
@[simp] theorem Engine.applyReset_inputs (e : Engine p) :
    e.applyReset.inputs = e.inputs := rfl

/-! ### `Engine.idle` -/

@[simp] theorem Engine.idle_table (e : Engine p) :
    e.idle.table = e.table := rfl
@[simp] theorem Engine.idle_ghr (e : Engine p) :
    e.idle.ghr = e.ghr := rfl
@[simp] theorem Engine.idle_pred (e : Engine p) :
    e.idle.pred = e.pred := rfl
@[simp] theorem Engine.idle_misp (e : Engine p) :
    e.idle.misp = e.misp := rfl
@[simp] theorem Engine.idle_fault (e : Engine p) :
    e.idle.fault = e.fault := rfl
@[simp] theorem Engine.idle_fcause (e : Engine p) :
    e.idle.fcause = e.fcause := rfl
@[simp] theorem Engine.idle_beenReset (e : Engine p) :
    e.idle.beenReset = e.beenReset := rfl
@[simp] theorem Engine.idle_resp (e : Engine p) :
    e.idle.resp = none := rfl
@[simp] theorem Engine.idle_inputs (e : Engine p) :
    e.idle.inputs = e.inputs := rfl

/-! ### `Engine.train` -/

@[simp] theorem Engine.train_table (e : Engine p) (address : Nat) (taken : Bool) :
    (e.train address taken).table = tblBump e.table (idx p e.ghr address) taken := rfl
@[simp] theorem Engine.train_ghr (e : Engine p) (address : Nat) (taken : Bool) :
    (e.train address taken).ghr = ghrShift e.ghr taken := rfl
@[simp] theorem Engine.train_pred (e : Engine p) (address : Nat) (taken : Bool) :
    (e.train address taken).pred = e.pred := rfl
@[simp] theorem Engine.train_misp (e : Engine p) (address : Nat) (taken : Bool) :
    (e.train address taken).misp = e.misp := rfl
@[simp] theorem Engine.train_fault (e : Engine p) (address : Nat) (taken : Bool) :
    (e.train address taken).fault = e.fault := rfl
@[simp] theorem Engine.train_fcause (e : Engine p) (address : Nat) (taken : Bool) :
    (e.train address taken).fcause = e.fcause := rfl
@[simp] theorem Engine.train_beenReset (e : Engine p) (address : Nat) (taken : Bool) :
    (e.train address taken).beenReset = e.beenReset := rfl
@[simp] theorem Engine.train_resp (e : Engine p) (address : Nat) (taken : Bool) :
    (e.train address taken).resp = e.resp := rfl
@[simp] theorem Engine.train_inputs (e : Engine p) (address : Nat) (taken : Bool) :
    (e.train address taken).inputs = e.inputs := rfl

/-! ### `Engine.count` -/

@[simp] theorem Engine.count_table (e : Engine p) (miss : Bool) :
    (e.count miss).table = e.table := rfl
@[simp] theorem Engine.count_ghr (e : Engine p) (miss : Bool) :
    (e.count miss).ghr = e.ghr := rfl
@[simp] theorem Engine.count_pred (e : Engine p) (miss : Bool) :
    (e.count miss).pred = e.pred + 1 := rfl
@[simp] theorem Engine.count_misp (e : Engine p) (miss : Bool) :
    (e.count miss).misp = e.misp + (BitVec.ofBool miss).setWidth p.statW := rfl
@[simp] theorem Engine.count_fault (e : Engine p) (miss : Bool) :
    (e.count miss).fault = e.fault := rfl
@[simp] theorem Engine.count_fcause (e : Engine p) (miss : Bool) :
    (e.count miss).fcause = e.fcause := rfl
@[simp] theorem Engine.count_beenReset (e : Engine p) (miss : Bool) :
    (e.count miss).beenReset = e.beenReset := rfl
@[simp] theorem Engine.count_resp (e : Engine p) (miss : Bool) :
    (e.count miss).resp = e.resp := rfl
@[simp] theorem Engine.count_inputs (e : Engine p) (miss : Bool) :
    (e.count miss).inputs = e.inputs := rfl

/-! ### `Engine.reset` -/

@[simp] theorem Engine.reset_table : (Engine.reset p).table = [] := rfl
@[simp] theorem Engine.reset_ghr : (Engine.reset p).ghr = 0 := rfl
@[simp] theorem Engine.reset_pred : (Engine.reset p).pred = 0 := rfl
@[simp] theorem Engine.reset_misp : (Engine.reset p).misp = 0 := rfl
@[simp] theorem Engine.reset_fault : (Engine.reset p).fault = false := rfl
@[simp] theorem Engine.reset_fcause : (Engine.reset p).fcause = 0 := rfl
@[simp] theorem Engine.reset_beenReset : (Engine.reset p).beenReset = true := rfl
@[simp] theorem Engine.reset_resp : (Engine.reset p).resp = none := rfl
@[simp] theorem Engine.reset_inputs : (Engine.reset p).inputs = [] := rfl

end

/-! ### `State.withInputs`, `State.resetWith` -/

section
variable (s : State) (rest : List (PortIn s.params.addrW))

@[simp] theorem State.withInputs_params : (s.withInputs rest).params = s.params := rfl
@[simp] theorem State.withInputs_inputs : (s.withInputs rest).engine.inputs = rest := rfl
@[simp] theorem State.withInputs_table : (s.withInputs rest).engine.table = s.engine.table := rfl
@[simp] theorem State.withInputs_ghr : (s.withInputs rest).engine.ghr = s.engine.ghr := rfl
@[simp] theorem State.withInputs_pred : (s.withInputs rest).engine.pred = s.engine.pred := rfl
@[simp] theorem State.withInputs_misp : (s.withInputs rest).engine.misp = s.engine.misp := rfl
@[simp] theorem State.withInputs_fault : (s.withInputs rest).engine.fault = s.engine.fault := rfl
@[simp] theorem State.withInputs_fcause : (s.withInputs rest).engine.fcause = s.engine.fcause := rfl
@[simp] theorem State.withInputs_beenReset : (s.withInputs rest).engine.beenReset = s.engine.beenReset := rfl
@[simp] theorem State.withInputs_resp : (s.withInputs rest).engine.resp = s.engine.resp := rfl

/-- Building an instance again on its own parameters changes nothing. -/
@[simp] theorem State.mk_self : (⟨s.params, s.engine⟩ : State) = s := rfl

@[simp] theorem State.resetWith_params (p : Params) : (State.resetWith p).params = p := rfl
@[simp] theorem State.resetWith_engine (p : Params) : (State.resetWith p).engine = Engine.reset p := rfl

end

end Sys2Proof.Machine
end

