-- ==== Sys2Proof/Laws/Ops.lean ====
section
/-! SUPPORT. What the shared operations can do: dispatch, training, one cycle of the port. -/

namespace Sys2Proof.Machine

/-- A command of a ready, unfaulted engine has its own effect (R147). -/
theorem command_of_ready {s : State} (h : s.Ready) (hf : s.engine.fault = false)
    (body : Engine s.params → Engine s.params) : command s body = .next { s with engine := body s.engine } := by
  simp only [command]
  rw [if_neg (not_not_intro h.1), if_neg (by simp [h.2]), if_neg (by simp [hf])]

/-- A command of a ready, faulted engine changes nothing and answers the cause (R146). -/
theorem command_of_fault {s : State} (h : s.Ready) (hf : s.engine.fault = true)
    (body : Engine s.params → Engine s.params) : command s body = .next { s with engine := s.engine.respondFault } := by
  simp only [command]
  rw [if_neg (not_not_intro h.1), if_neg (by simp [h.2]), if_pos hf]

/-- All that the dispatch can answer with a next state. -/
theorem command_next {s s' : State} {body : Engine s.params → Engine s.params} (h : command s body = .next s') :
    s.Ready ∧
      ((s.engine.fault = true ∧ s' = { s with engine := s.engine.respondFault }) ∨
        (s.engine.fault = false ∧ s' = { s with engine := body s.engine })) := by
  unfold command at h
  split_ifs at h with hv hb hf
  · refine ⟨⟨hv, by simpa using hb⟩, .inl ⟨hf, by simpa using h.symm⟩⟩
  · refine ⟨⟨hv, by simpa using hb⟩, .inr ⟨by simpa using hf, by simpa using h.symm⟩⟩

/-- A command never answers a host-level fault (log entry 5). -/
theorem command_ne_fault {s : State} (body : Engine s.params → Engine s.params) (f : Fault) :
    command s body ≠ .fault f := by
  unfold command
  split_ifs <;> simp

/-- Every command is one body under the dispatch; `bodyOf` names it. -/
def bodyOf (i : Instr) (p : Params) (e : Engine p) : Engine p :=
  match i with
  | .nop => e.respondNone
  | .predict address => e.respond (BitVec.ofBool (takenOf (e.selected address)))
  | .update address taken => (e.train address taken).respondNone
  | .step address taken =>
    if e.statFull then e.raise .statOverflow
    else
      ((e.train address taken).count (takenOf (e.selected address) != taken)).respond
        (BitVec.ofBool (takenOf (e.selected address) != taken) ++ BitVec.ofBool (takenOf (e.selected address)))
  | .index address => e.respond (idx p e.ghr address)
  | .read entry => if 2 ^ p.m ≤ entry then e.raise .indexOutOfRange else e.respond (tblRead e.table entry)
  | .rdhist => e.respond e.ghr
  | .rdstat .pred => e.respond e.pred
  | .rdstat .misp => e.respond e.misp

theorem exec_eq_command (i : Instr) (s : State) : exec i s = command s (bodyOf i s.params) := by
  cases i with
  | rdstat sel => cases sel <;> rfl
  | _ => rfl

/-- What training does to the table (R93, R112). -/
theorem train_table_read {p : Params} {e : Engine p} (ht : Memory.wf p.m e.table = true) (address : Nat) (taken : Bool)
    (j : Nat) :
    tblRead (e.train address taken).table j =
      if j = (idx p e.ghr address).toNat then bump (e.selected address) taken else tblRead e.table j :=
  tblRead_tblWrite ht _ _ _

/-- Training keeps the canonical form. -/
theorem train_wf {p : Params} {e : Engine p} (ht : Memory.wf p.m e.table = true) (address : Nat) (taken : Bool) :
    Memory.wf p.m (e.train address taken).table = true :=
  tblBump_wf ht (idx p e.ghr address) taken

/-! ### One step -/

section Step
variable {p : Params} {e : Engine p}

/-- The body of a command word: that of the command it decodes to, or the fault of a reserved word (R147). -/
def wordBody (p : Params) (w : CmdWord p.addrW) (e : Engine p) : Engine p :=
  match decode p.addrW w with
  | .ok i => bodyOf i p e
  | .error _ => e.raise .reservedCommand

theorem wordBody_ok {w : CmdWord p.addrW} {i : Instr} (h : decode p.addrW w = .ok i) : wordBody p w e = bodyOf i p e := by
  simp [wordBody, h]

theorem wordBody_error {w : CmdWord p.addrW} {r : ReservedForm} (h : decode p.addrW w = .error r) :
    wordBody p w e = e.raise .reservedCommand := by
  simp [wordBody, h]

/-- One command word is its body under the dispatch. -/
theorem runWord_eq_command (s : State) (w : CmdWord s.params.addrW) :
    runWord s w = command s (wordBody s.params w) := by
  unfold runWord
  cases h : decode s.params.addrW w with
  | ok i =>
    simp only [exec_eq_command]
    congr 1
    funext e
    exact (wordBody_ok h).symm
  | error r =>
    simp only
    congr 1
    funext e
    exact (wordBody_error h).symm

/-- A step without valid parameters (R12). -/
theorem step_of_invalid (hv : ¬ p.Valid) : step ⟨p, e⟩ = .refused .invalidParameters := by
  unfold step stepCycle
  rw [if_pos hv]

/-- A step of an engine the host drives no further (R132). -/
theorem step_of_nil (hv : p.Valid) (h : e.inputs = []) : step ⟨p, e⟩ = .next ⟨p, e.idle⟩ := by
  unfold step stepCycle
  rw [if_neg (not_not_intro hv)]
  simp only [h]
  rfl

/-- A step takes the next port cycle (R71). -/
theorem step_of_cons (hv : p.Valid) {c : PortIn p.addrW} {rest : List (PortIn p.addrW)} (h : e.inputs = c :: rest) :
    step ⟨p, e⟩ =
      if c.rst then .next ⟨p, Engine.applyReset { e with inputs := rest }⟩
      else if c.cmdValid then command ⟨p, { e with inputs := rest }⟩ (wordBody p c.cmd)
      else .next ⟨p, Engine.idle { e with inputs := rest }⟩ := by
  have h1 : step ⟨p, e⟩ = cycle ⟨p, { e with inputs := rest }⟩ c := by
    unfold step stepCycle
    rw [if_neg (not_not_intro hv)]
    simp only [h]
    rfl
  rw [h1, ← runWord_eq_command ⟨p, { e with inputs := rest }⟩ c.cmd]
  rfl

/-- All that a step can answer with a next state. -/
theorem step_next {s' : State} (h : step ⟨p, e⟩ = .next s') :
    p.Valid ∧ ∃ e' : Engine p, s' = ⟨p, e'⟩ ∧
      ((e.inputs = [] ∧ e' = e.idle) ∨
        ∃ (c : PortIn p.addrW) (rest : List (PortIn p.addrW)), e.inputs = c :: rest ∧
          ((c.rst = true ∧ e' = Engine.applyReset { e with inputs := rest }) ∨
            (c.rst = false ∧ c.cmdValid = false ∧ e' = Engine.idle { e with inputs := rest }) ∨
            (c.rst = false ∧ c.cmdValid = true ∧ e.beenReset = true ∧
              ((e.fault = true ∧ e' = Engine.respondFault { e with inputs := rest }) ∨
                (e.fault = false ∧ e' = wordBody p c.cmd { e with inputs := rest }))))) := by
  by_cases hv : p.Valid
  · refine ⟨hv, ?_⟩
    cases hi : e.inputs with
    | nil =>
      rw [step_of_nil hv hi] at h
      exact ⟨_, (by simpa using h.symm), .inl ⟨rfl, rfl⟩⟩
    | cons c rest =>
      rw [step_of_cons hv hi] at h
      split_ifs at h with h1 h2
      · exact ⟨_, by simpa using h.symm, .inr ⟨c, rest, rfl, .inl ⟨h1, rfl⟩⟩⟩
      · obtain ⟨hr, ⟨hf, hs⟩ | ⟨hf, hs⟩⟩ := command_next h
        · exact ⟨_, hs, .inr ⟨c, rest, rfl, .inr (.inr ⟨by simpa using h1, h2, hr.2, .inl ⟨hf, rfl⟩⟩)⟩⟩
        · exact ⟨_, hs, .inr ⟨c, rest, rfl, .inr (.inr ⟨by simpa using h1, h2, hr.2, .inr ⟨hf, rfl⟩⟩)⟩⟩
      · exact ⟨_, by simpa using h.symm, .inr ⟨c, rest, rfl, .inr (.inl ⟨by simpa using h1, by simpa using h2, rfl⟩)⟩⟩
  · rw [step_of_invalid hv] at h
    cases h

end Step

/-! ### What every command's body keeps -/

section Body
variable {p : Params} (i : Instr) (e : Engine p)

@[simp] theorem bodyOf_beenReset : (bodyOf i p e).beenReset = e.beenReset := by
  unfold bodyOf; split <;> (try split_ifs) <;> simp

@[simp] theorem bodyOf_inputs : (bodyOf i p e).inputs = e.inputs := by
  unfold bodyOf; split <;> (try split_ifs) <;> simp

/-- PRED is full exactly at `2^STAT_W - 1` (R144). -/
theorem statFull_iff : e.statFull = true ↔ e.pred.toNat = 2 ^ p.statW - 1 := by
  simp [Engine.statFull, BitVec.toNat_eq]

/-- All that a command's body can do: answer with FAULT as it was, or raise READ's or STEP's own fault (R141, R147). -/
theorem bodyOf_cases :
    ((bodyOf i p e).fault = e.fault ∧ (bodyOf i p e).fcause = e.fcause ∧
        ∃ d, (bodyOf i p e).resp = some { err := false, data := d }) ∨
      (∃ k, i = .read k ∧ 2 ^ p.m ≤ k ∧ bodyOf i p e = e.raise .indexOutOfRange) ∨
      ∃ a t, i = .step a t ∧ e.statFull = true ∧ bodyOf i p e = e.raise .statOverflow := by
  cases i with
  | rdstat sel => cases sel <;> exact .inl ⟨rfl, rfl, _, rfl⟩
  | read k =>
    by_cases h : 2 ^ p.m ≤ k
    · exact .inr (.inl ⟨k, rfl, h, by simp [bodyOf, h]⟩)
    · exact .inl (by simp [bodyOf, h])
  | step a t =>
    by_cases h : e.statFull = true
    · exact .inr (.inr ⟨a, t, rfl, h, by simp [bodyOf, h]⟩)
    · exact .inl (by simp [bodyOf, h])
  | _ => exact .inl ⟨rfl, rfl, _, rfl⟩

end Body

end Sys2Proof.Machine
end

