-- ==== Sys2Proof/Laws/PerInstr.lean ====
section
/-! SUPPORT. The family OpField of LAWS.json: the encoder puts a command's own code in the `op` field and its outcome in
the `t` field, at every address width. -/

namespace Sys2Proof.Laws.OpField

/-- The claim for one command. -/
def Statement (i : Instr) : Prop :=
  ∀ addrW, cmdOp (encode addrW i) = i.op.code ∧ cmdT (encode addrW i) = i.fieldT

theorem of_packCmd (i : Instr) : Statement i := fun _ => ⟨cmdOp_packCmd _ _ _, cmdT_packCmd _ _ _⟩

theorem nop : Statement .nop := of_packCmd _
theorem predict (address : Nat) : Statement (.predict address) := of_packCmd _
theorem update (address : Nat) (taken : Bool) : Statement (.update address taken) := of_packCmd _
theorem step (address : Nat) (taken : Bool) : Statement (.step address taken) := of_packCmd _
theorem index (address : Nat) : Statement (.index address) := of_packCmd _
theorem read (entry : Nat) : Statement (.read entry) := of_packCmd _
theorem rdhist : Statement .rdhist := of_packCmd _
theorem rdstat (sel : StatSel) : Statement (.rdstat sel) := of_packCmd _

end Sys2Proof.Laws.OpField
end

