-- ==== Sys2Proof/Laws/Run.lean ====
section
/-! SUPPORT. Runs, one step or one command at a time. -/

namespace Sys2Proof.Machine

/-- A run takes its first step, then the rest. -/
theorem runSteps_succ {k : Nat} {s s' : State} (h : step s = .next s') : runSteps (k + 1) s = runSteps k s' := by
  rw [runSteps, h]

/-- What the host's run of any machine does with its first step. -/
theorem run_succ_eq (M : Host.Core) (k : Nat) (s : M.State) :
    (∀ s', M.step s = .next s' → M.run (k + 1) s = M.run k s') ∧
      (∀ f, M.step s = .fault f → M.run (k + 1) s = .fault f) ∧
      ∀ r, M.step s = .refused r → M.run (k + 1) s = .refused r := by
  refine ⟨fun s' h => ?_, fun f h => ?_, fun r h => ?_⟩ <;> rw [Host.Core.run, h]

/-- The host's run of the core is `runSteps`. -/
theorem core_run_eq_runSteps (k : Nat) (s : State) : Host.Core.run core k s = runSteps k s := by
  induction k generalizing s with
  | zero => rfl
  | succ k ih =>
    obtain ⟨hn, hf, hr⟩ := run_succ_eq core k s
    rw [runSteps]
    cases h : step s with
    | next s' => exact (hn s' h).trans (ih s')
    | fault f => exact hf f h
    | refused r => exact hr r h

/-- A run of commands executes its first, then the rest. -/
theorem runCommands_cons {i : Instr} {is : List Instr} {s s' : State} (h : exec i s = .next s') :
    runCommands (i :: is) s = runCommands is s' := by
  rw [runCommands, h]

/-- A run of commands that ends in a next state executed its first command. -/
theorem runCommands_cons_next {i : Instr} {is : List Instr} {s s' : State} (h : runCommands (i :: is) s = .next s') :
    ∃ s1, exec i s = .next s1 ∧ runCommands is s1 = .next s' := by
  rw [runCommands] at h
  cases hx : exec i s with
  | next s1 => exact ⟨s1, rfl, by simpa [hx] using h⟩
  | fault f => simp [hx] at h
  | refused r => simp [hx] at h

/-- All that executing a command can answer with a next state. -/
theorem exec_next {p : Params} {e : Engine p} {i : Instr} {s' : State} (h : exec i ⟨p, e⟩ = .next s') :
    p.Valid ∧ e.beenReset = true ∧ ∃ e' : Engine p, s' = ⟨p, e'⟩ ∧
      ((e.fault = true ∧ e' = e.respondFault) ∨ (e.fault = false ∧ e' = bodyOf i p e)) := by
  rw [exec_eq_command] at h
  obtain ⟨⟨hv, hb⟩, ⟨hf, rfl⟩ | ⟨hf, rfl⟩⟩ := command_next h
  · exact ⟨hv, hb, _, rfl, .inl ⟨hf, rfl⟩⟩
  · exact ⟨hv, hb, _, rfl, .inr ⟨hf, rfl⟩⟩

/-- A command of a ready, unfaulted engine is its body. -/
theorem exec_of_ready {p : Params} {e : Engine p} (i : Instr) (hv : p.Valid) (hb : e.beenReset = true)
    (hf : e.fault = false) : exec i ⟨p, e⟩ = .next ⟨p, bodyOf i p e⟩ := by
  rw [exec_eq_command]
  exact command_of_ready (s := ⟨p, e⟩) ⟨hv, hb⟩ hf _

/-- A command of a ready, faulted engine answers the cause. -/
theorem exec_of_fault {p : Params} {e : Engine p} (i : Instr) (hv : p.Valid) (hb : e.beenReset = true)
    (hf : e.fault = true) : exec i ⟨p, e⟩ = .next ⟨p, e.respondFault⟩ := by
  rw [exec_eq_command]
  exact command_of_fault (s := ⟨p, e⟩) ⟨hv, hb⟩ hf _

/-- A run of commands stays on its instance. -/
theorem runCommands_params {p : Params} {is : List Instr} {e : Engine p} {s' : State}
    (h : runCommands is ⟨p, e⟩ = .next s') : ∃ e' : Engine p, s' = ⟨p, e'⟩ := by
  induction is generalizing e with
  | nil => exact ⟨e, by simpa [runCommands] using h.symm⟩
  | cons i is ih =>
    obtain ⟨s1, h1, h2⟩ := runCommands_cons_next h
    obtain ⟨_, _, e1, rfl, _⟩ := exec_next h1
    exact ih h2

/-- A run that ends unfaulted began unfaulted (R146). -/
theorem fault_false_of_run {p : Params} {is : List Instr} {e e' : Engine p}
    (h : runCommands is ⟨p, e⟩ = .next ⟨p, e'⟩) (hf : e'.fault = false) : e.fault = false := by
  induction is generalizing e with
  | nil =>
    obtain rfl : e = e' := by simpa [runCommands] using h
    exact hf
  | cons i is ih =>
    obtain ⟨s1, h1, h2⟩ := runCommands_cons_next h
    obtain ⟨_, _, e1, rfl, ⟨hf1, rfl⟩ | ⟨hf0, _⟩⟩ := exec_next h1
    · exact (ih h2).symm.trans hf1 |> fun hx => by simp at hx
    · exact hf0

/-- The first command of a run that ends unfaulted has its own effect, and does not fault. -/
theorem runCommands_cons_unfaulted {p : Params} {i : Instr} {is : List Instr} {e e' : Engine p}
    (h : runCommands (i :: is) ⟨p, e⟩ = .next ⟨p, e'⟩) (hf : e'.fault = false) :
    p.Valid ∧ e.beenReset = true ∧ e.fault = false ∧ (bodyOf i p e).fault = false ∧
      runCommands is ⟨p, bodyOf i p e⟩ = .next ⟨p, e'⟩ := by
  have h0 := fault_false_of_run h hf
  obtain ⟨s1, h1, h2⟩ := runCommands_cons_next h
  obtain ⟨hv, hb, e1, rfl, ⟨hf1, _⟩ | ⟨_, rfl⟩⟩ := exec_next h1
  · simp [h0] at hf1
  · exact ⟨hv, hb, h0, fault_false_of_run h2 hf, h2⟩

end Sys2Proof.Machine
end

