-- ==== Sys2Proof/Tests/Slice0.lean ====
section
/-! SUPPORT. The model's own tests. Expected results are the spec's: the vectors V<n> of 95_test_vectors and the encodings of
30_encoding section 4. The witnesses show, for each statement with premises, a state and operands that meet them. -/

open Sys2Proof Sys2Proof.Machine Sys2Proof.Safety Sys2Proof.Claims

namespace Sys2Proof.Tests

/-! ### Small states -/

/-- Two bits of history on four entries; 8-bit addresses, 4-bit counts, 8-bit responses. -/
def tiny : Params := { kind := .gshare, m := 2, n := 2, addrW := 8, statW := 4, respW := 8 }

/-- The same sizes without history. -/
def tinyFlat : Params := { tiny with n := 0 }

/-- The same sizes, bimodal. -/
def tinyBimodal : Params := { tiny with kind := .bimodal, n := 0 }

/-- The bimodal instance of the spec's vectors. -/
def bimodal2 : Params := { kind := .bimodal, m := 2, n := 0, addrW := 32, statW := 64, respW := 64 }

/-- The gshare instance of the spec's vectors V55 to V57. -/
def gshare43 : Params := { kind := .gshare, m := 4, n := 3, addrW := 32, statW := 64, respW := 64 }

/-- An engine with a given table, history and counts, as after reset otherwise. -/
def eng (p : Params) (table : Memory) (ghr pred misp : Nat) : Engine p :=
  { Engine.reset p with table := table, ghr := BitVec.ofNat _ ghr, pred := BitVec.ofNat _ pred, misp := BitVec.ofNat _ misp }

/-- The same, faulted. -/
def engFault (p : Params) (fcause : Nat) : Engine p :=
  { Engine.reset p with fault := true, fcause := BitVec.ofNat _ fcause }

/-- What a step leaves: `T` (the entries other than 2), `GHR`, `PRED`, `MISP`, `FCAUSE`, and the response. -/
structure Seen where
  table : List (Nat × Nat)
  ghr   : Nat
  pred  : Nat
  misp  : Nat
  cause : Nat
  resp  : Option (Bool × Nat)
deriving DecidableEq, Repr

def seen (r : Result) : Option Seen :=
  match r with
  | .next s => some ⟨s.engine.table.map (fun x => (x.1, x.2.toNat)), s.engine.ghr.toNat, s.engine.pred.toNat,
      s.engine.misp.toNat, s.engine.fcause.toNat, s.engine.resp.map fun x => (x.err, x.data.toNat)⟩
  | .fault _ => none
  | .refused _ => none

/-- One step on a command word of the default width. -/
def stepWord (p : Params) (e : Engine p) (w : Nat) : Result := step ((⟨p, e⟩ : State).withFetchWord 40 w)

/-! ### Well-formedness: one ill-formed command for each check -/

theorem test_wf_predict_refuses_wide_address : (Instr.predict 256).wf 8 = false := by decide
theorem test_wf_update_refuses_wide_address : (Instr.update 256 true).wf 8 = false := by decide
theorem test_wf_step_refuses_wide_address : (Instr.step 256 false).wf 8 = false := by decide
theorem test_wf_index_refuses_wide_address : (Instr.index 256).wf 8 = false := by decide
theorem test_wf_read_refuses_wide_index : (Instr.read 256).wf 8 = false := by decide
theorem test_wf_widest_address : (Instr.read 255).wf 8 = true := by decide
theorem test_memory_wf_refuses_unsorted : Memory.wf 2 [(1, 3), (0, 3)] = false := by decide
theorem test_memory_wf_refuses_repeated : Memory.wf 2 [(1, 3), (1, 1)] = false := by decide
theorem test_memory_wf_refuses_initial : Memory.wf 2 [(1, 2)] = false := by decide
theorem test_memory_wf_refuses_outside : Memory.wf 2 [(4, 3)] = false := by decide
theorem test_params_refuse_wide_history : ¬ ({ tiny with n := 3 } : Params).Valid := by decide
theorem test_params_refuse_empty_table : ¬ ({ tiny with m := 0, n := 0 } : Params).Valid := by decide
theorem test_params_refuse_bimodal_history : ¬ ({ tiny with kind := .bimodal } : Params).Valid := by decide
theorem test_params_refuse_wide_table : ¬ ({ tiny with m := 7 } : Params).Valid := by decide
theorem test_params_refuse_narrow_response : ¬ ({ tiny with respW := 3 } : Params).Valid := by decide

/-! ### Decoding: the patterns of 30_encoding section 4, `op` `t` `a` -/

theorem test_decode_nop : decodeTableWord 40 0b000_0_00000000000000000000000000000000 = some .nop := by decide
theorem test_decode_predict : decodeTableWord 40 0b001_0_00000000000000000000000000010000 = some (.predict 16) := by decide
theorem test_decode_update : decodeTableWord 40 0b010_1_10000000000000000000000000000011 = some (.update 0x80000003 true) := by
  decide
theorem test_decode_step : decodeTableWord 40 0b011_0_00000000000000000000000000100000 = some (.step 32 false) := by decide
theorem test_decode_index : decodeTableWord 40 0b100_0_00000000010000000000101000111100 = some (.index 0x00400A3C) := by decide
theorem test_decode_read : decodeTableWord 40 0b101_0_00000000000000000000000000000100 = some (.read 4) := by decide
theorem test_decode_rdhist : decodeTableWord 40 0b110_0_00000000000000000000000000000000 = some .rdhist := by decide
theorem test_decode_rdstat : decodeTableWord 40 0b111_0_00000000000000000000000000000001 = some (.rdstat .misp) := by decide

/-- V80 to V88: the reserved words. -/
theorem test_decode_reserved : [0x100000000, 0x000000001, 0x300000010, 0x900000000, 0xB00000000, 0xD00000000, 0xC00000001,
    0xF00000000, 0xE00000002].map (decodeTableWord 40) = List.replicate 9 none := by decide

/-- Another width, R61: `ADDR_W = 8`, bits 11:9, 8, 7:0. -/
theorem test_decode_narrow : (decode 8 0b011_1_10000001).toOption = some (.step 0x81 true) := by decide

theorem test_encode_step : encode 32 (.step 0x00400A3C true) = 0x700400A3C := by decide
theorem test_encode_rdstat : encode 32 (.rdstat .misp) = 0xE00000001 := by decide

/-! ### The pure functions -/

/-- V1 to V8. -/
theorem test_bump : [0, 1, 2, 3].map (fun c => ((bump c false).toNat, (bump c true).toNat, takenOf c)) =
    [(0, 1, false), (0, 2, false), (1, 3, true), (2, 3, true)] := by decide

/-- V13, V14, V16, V17, V18, V19, V20, V21, V23: `M`, `N`, `GHR`, address, index. -/
theorem test_idx_gshare :
    [(idxGshare 4 0x00400A3C 0b11#2).toNat, (idxGshare 4 0x00400A3C 0b1010#4).toNat, (idxGshare 2 8 0b01#2).toNat,
      (idxGshare 1 3 0b1#1).toNat, (idxGshare 1 4 0b1#1).toNat, (idxGshare 6 0x12345678 0b101#3).toNat,
      (idxGshare 12 0xDEADBEEF 0b10011#5).toNat, (idxGshare 10 0xFFFFFFFF 0x3FF#10).toNat, (idxGshare 30 0 0b1#1).toNat] =
    [3, 5, 3, 1, 0, 54, 1595, 0, 0x20000000] := by decide

/-- V10, V11, V12, V22. -/
theorem test_idx_bimodal : ((idxBimodal 2 0x7).toNat, (idxBimodal 2 0x13).toNat, (idxBimodal 4 0x00400A3C).toNat,
    (idxBimodal 30 0xFFFFFFFF).toNat) = (1, 0, 15, 0x3FFFFFFF) := by decide

/-- V30 to V38: from 0, `N = 4`. -/
theorem test_ghr_shift : (List.scanl ghrShift (0 : BitVec 4) [true, false, true, true, false, false, false, false, true]).map
    BitVec.toNat = [0, 8, 4, 10, 13, 6, 3, 1, 0, 8] := by decide

/-- V39: `N = 1`, the register is the last outcome. -/
theorem test_ghr_shift_one : (List.scanl ghrShift (0 : BitVec 1) [true, true, false, true, false]).map BitVec.toNat =
    [0, 1, 1, 0, 1, 0] := by decide

theorem test_write_keeps_canonical_form : tblWrite [(0, 3), (2, 1)] 2#2 2 = [(0, 3)] := by decide
theorem test_write_inserts_in_order : tblWrite [(0, 3), (2, 1)] 1#2 0 = [(0, 3), (1, 0), (2, 1)] := by decide

/-- R42, R52 on V58's end state. -/
theorem test_final_table : finalTable ⟨bimodal2, eng bimodal2 [(3, 1)] 0 3 1⟩ = [(0, 2), (1, 2), (2, 2), (3, 1)] := by decide

/-- S7: nothing predicted, no rate. -/
theorem test_rate_undefined : mispredictionRate (State.resetWith bimodal2) = none := by decide

/-! ### One step of each command -/

/-- V66. -/
theorem test_step_nop : seen (stepWord bimodal2 (Engine.reset _) 0x000000000) = some ⟨[], 0, 0, 0, 0, some (false, 0)⟩ := by
  decide

/-- V50. -/
theorem test_step_predict : seen (stepWord gshare43 (Engine.reset _) 0x200000010) = some ⟨[], 0, 0, 0, 0, some (false, 1)⟩ := by
  decide

/-- V52. -/
theorem test_step_predict_not_taken : seen (stepWord bimodal2 (eng _ [(0, 1)] 0 0 0) 0x200000000) =
    some ⟨[(0, 1)], 0, 0, 0, 0, some (false, 0)⟩ := by decide

/-- V57: the index is that of the history before the command; the shift drops the oldest bit. -/
theorem test_step_update_order : seen (stepWord gshare43 (eng _ [(8, 3)] 0b111 0 0) 0x500400A3C) =
    some ⟨[(1, 3), (8, 3)], 0b111, 0, 0, 0, some (false, 0)⟩ := by decide

/-- V54: saturated low. -/
theorem test_step_update_saturated : seen (stepWord bimodal2 (eng _ [(0, 0)] 0 0 0) 0x400000000) =
    some ⟨[(0, 0)], 0, 0, 0, 0, some (false, 0)⟩ := by decide

/-- V58. -/
theorem test_step_step_miss : seen (stepWord bimodal2 (eng _ [(0, 3)] 0 2 0) 0x600000020) =
    some ⟨[], 0, 3, 1, 0, some (false, 3)⟩ := by decide

/-- V67: StatOverflow. -/
theorem test_step_step_overflow : seen (stepWord gshare43 (eng _ [(0, 3)] 5 (2 ^ 64 - 1) 7) 0x700000000) =
    some ⟨[(0, 3)], 5, 2 ^ 64 - 1, 7, 3, some (true, 3)⟩ := by decide

/-- V56. -/
theorem test_step_index : seen (stepWord gshare43 (eng _ [] 0b100 0 0) 0x800400A3C) =
    some ⟨[], 0b100, 0, 0, 0, some (false, 7)⟩ := by decide

/-- V62. -/
theorem test_step_read_last : seen (stepWord bimodal2 (Engine.reset _) 0xA00000003) =
    some ⟨[], 0, 0, 0, 0, some (false, 2)⟩ := by decide

/-- V63. -/
theorem test_step_read_outside : seen (stepWord bimodal2 (Engine.reset _) 0xA00000004) =
    some ⟨[], 0, 0, 0, 1, some (true, 1)⟩ := by decide

/-- R116: the history, zero-extended. -/
theorem test_step_rdhist : seen (stepWord gshare43 (eng _ [] 0b101 0 0) 0xC00000000) =
    some ⟨[], 0b101, 0, 0, 0, some (false, 5)⟩ := by decide

/-- R126: the two counts, by the selector. -/
theorem test_step_rdstat : seen (stepWord bimodal2 (eng _ [] 0 9 4) 0xE00000000) = some ⟨[], 0, 9, 4, 0, some (false, 9)⟩ := by
  decide

theorem test_step_rdstat_misp : seen (stepWord bimodal2 (eng _ [] 0 9 4) 0xE00000001) =
    some ⟨[], 0, 9, 4, 0, some (false, 4)⟩ := by decide

/-- V80: a reserved word. -/
theorem test_step_reserved : seen (stepWord bimodal2 (Engine.reset _) 0x100000000) =
    some ⟨[], 0, 0, 0, 2, some (true, 2)⟩ := by decide

/-- V70: a faulted engine. -/
theorem test_step_faulted : seen (stepWord bimodal2 (engFault _ 2) 0x700000000) = some ⟨[], 0, 0, 0, 2, some (true, 2)⟩ := by
  decide

/-- R167: reset wins over a fault and over the command in the same cycle, and gives no response. -/
theorem test_step_reset : seen (step ⟨bimodal2, { engFault bimodal2 1 with
    inputs := [{ rst := true, cmdValid := true, cmd := 0x100000000 }] }⟩) = some ⟨[], 0, 0, 0, 0, none⟩ := by decide

/-- R71: nothing presented. -/
theorem test_step_idle : seen (step State.reset) = some ⟨[], 0, 0, 0, 0, none⟩ := by decide

/-- R166: no meaning before reset. -/
theorem test_step_before_reset : seen (stepWord bimodal2 { Engine.reset _ with beenReset := false } 0) = none := by decide

/-- R12: no engine, no step. -/
theorem test_step_invalid : seen (stepWord { bimodal2 with m := 0 } (Engine.reset _) 0) = none := by decide

/-! ### The textual form (R69) -/

theorem test_read_program : readProgram "STEP 0x00400A3C, T ; comment\n\nUPDATE 10,N\nRDSTAT MISP" =
    some [.step 0x00400A3C true, .update 10 false, .rdstat .misp] := by decide

theorem test_read_refuses_lower_case : readProgram "nop" = none := by decide

theorem test_assemble : assemble 32 "STEP 0x00400A3C, T" = some [0x700400A3C] := by decide

/-! ### Witnesses: for each statement with premises, a state and operands that meet them all

`midRun` is in the middle of a run of the gshare instance `tiny`, `atMax` has counted all it can, and `bimodalRun` is a
bimodal engine. -/

def midRun : State := ⟨tiny, eng tiny [(0, 3), (2, 1)] 0b01 14 2⟩
def atMax : State := ⟨tiny, eng tiny [(0, 3), (2, 1)] 0b01 15 2⟩
def faulted : State := ⟨tiny, { eng tiny [(0, 3)] 0b10 5 2 with fault := true, fcause := 3 }⟩
def bimodalRun : State := ⟨tinyBimodal, eng tinyBimodal [(3, 0)] 0 5 2⟩
def noReset : State := ⟨tiny, { Engine.reset tiny with beenReset := false }⟩
def noEngine : State := State.resetWith { tiny with m := 0, n := 0 }
def rstCycle : PortIn 8 := { rst := true, cmdValid := true, cmd := 0x100 }
def cmdCycle (w : CmdWord 8) : PortIn 8 := PortIn.command w

theorem witness_ResetCycleRestoresEveryElement : (faulted.queue [rstCycle]).params.Valid ∧
    (faulted.queue [rstCycle]).engine.inputs = rstCycle :: [] ∧ rstCycle.rst = true := ⟨by decide, rfl, rfl⟩

theorem witness_IdleCycleChangesNothing : midRun.params.Valid ∧ midRun.engine.inputs = [] ∧
    (midRun.queue [PortIn.idle 8, rstCycle]).engine.inputs = PortIn.idle 8 :: [rstCycle] ∧ (PortIn.idle 8).rst = false ∧
    (PortIn.idle 8).cmdValid = false := ⟨by decide, rfl, rfl, rfl, rfl⟩

theorem witness_StepRunsTheDecodedCommand : midRun.params.Valid ∧
    (midRun.queue [cmdCycle 0x720]).engine.inputs = cmdCycle 0x720 :: [] ∧ (cmdCycle 0x720).rst = false ∧
    (cmdCycle 0x720).cmdValid = true ∧ decode midRun.params.addrW (cmdCycle 0x720).cmd = .ok (.step 0x20 true) :=
  ⟨by decide, rfl, rfl, rfl, rfl⟩

theorem witness_ReservedWordRaisesReservedCommand : (midRun.queue [cmdCycle 0xE02]).Ready ∧
    (midRun.queue [cmdCycle 0xE02]).engine.fault = false ∧
    (midRun.queue [cmdCycle 0xE02]).engine.inputs = cmdCycle 0xE02 :: [] ∧ (cmdCycle 0xE02).rst = false ∧
    (cmdCycle 0xE02).cmdValid = true ∧ ∃ r, decode midRun.params.addrW (cmdCycle 0xE02).cmd = .error r :=
  ⟨by decide, rfl, rfl, rfl, rfl, _, rfl⟩

theorem witness_NoEngineOrNoResetIsRefused : ¬ noEngine.params.Valid ∧ tiny.Valid ∧ noReset.params.Valid ∧
    noReset.engine.beenReset = false ∧ (noReset.queue [cmdCycle 0]).engine.inputs = cmdCycle 0 :: [] ∧
    (cmdCycle 0).rst = false ∧ (cmdCycle 0).cmdValid = true ∧ (noReset.queue [rstCycle]).engine.inputs = rstCycle :: [] ∧
    rstCycle.rst = true := ⟨by decide, by decide, by decide, rfl, rfl, rfl, rfl, rfl, rfl⟩

/-- One state that is driven a command, one that is driven none. -/
theorem witness_EveryStepCompletesAndEveryCommandIsAnswered : midRun.Ready ∧ (midRun.queue [cmdCycle 0]).Ready ∧
    State.reset.Ready ∧ faulted.Ready := by decide

theorem witness_ParametersNeverChange : ∃ s', step midRun = .next s' := ⟨_, rfl⟩

/-- A faulted engine, and an engine that READ 4, of a table of four entries, makes fault. -/
theorem witness_FaultIsPreciseAndFreezesTheEngine : faulted.Ready ∧ faulted.engine.fault = true ∧
    (faulted.queue [cmdCycle 0]).Ready ∧ (faulted.queue [cmdCycle 0]).engine.fault = true ∧
    (faulted.queue [cmdCycle 0]).engine.inputs = cmdCycle 0 :: [] ∧ (cmdCycle 0).rst = false ∧
    (cmdCycle 0).cmdValid = true ∧ (midRun.queue [cmdCycle 0xA04]).engine.fault = false ∧
    ∃ s', step (midRun.queue [cmdCycle 0xA04]) = .next s' ∧ s'.engine.fault = true :=
  ⟨by decide, rfl, by decide, rfl, rfl, rfl, rfl, rfl, _, rfl, rfl⟩

/-- Two cycles without a reset, and the reset after them. -/
theorem witness_FaultedEngineIsFrozenUntilReset : (faulted.queue [cmdCycle 0, PortIn.idle 8, rstCycle]).Ready ∧
    (faulted.queue [cmdCycle 0, PortIn.idle 8, rstCycle]).engine.fault = true ∧
    ∀ c ∈ (faulted.queue [cmdCycle 0, PortIn.idle 8, rstCycle]).engine.inputs.take 2, c.rst = false :=
  ⟨by decide, rfl, by decide⟩

theorem witness_OnlyResetClearsFault : ∃ s', step (faulted.queue [rstCycle]) = .next s' ∧
    (faulted.queue [rstCycle]).engine.fault = true ∧ s'.engine.fault = false := ⟨_, rfl, rfl, rfl⟩

/-- Each cause: the reserved word, READ at `2^M`, STEP at the maximum; and READ at `2^M - 1` and STEP below the maximum,
which do not fault. -/
theorem witness_FaultsAreExactlyTheThreeCauses :
    (∃ e', step (midRun.queue [cmdCycle 0x001]) = .next ⟨tiny, e'⟩ ∧ e'.fault = true ∧ e'.fcause = 2) ∧
    (∃ e', step (midRun.queue [cmdCycle 0xA04]) = .next ⟨tiny, e'⟩ ∧ e'.fault = true ∧ e'.fcause = 1) ∧
    (∃ e', step (atMax.queue [cmdCycle 0x720]) = .next ⟨tiny, e'⟩ ∧ e'.fault = true ∧ e'.fcause = 3) ∧
    (∃ e', step (midRun.queue [cmdCycle 0xA03]) = .next ⟨tiny, e'⟩ ∧ e'.fault = false) ∧
    ∃ e', step (midRun.queue [cmdCycle 0x720]) = .next ⟨tiny, e'⟩ ∧ e'.fault = false :=
  ⟨⟨_, rfl, rfl, rfl⟩, ⟨_, rfl, rfl, rfl⟩, ⟨_, rfl, rfl, rfl⟩, ⟨_, rfl, rfl⟩, _, rfl, rfl⟩

theorem midRun_inv : Inv midRun := ⟨by decide, rfl, by decide, by decide, by decide, by decide⟩
theorem faulted_inv : Inv faulted := ⟨by decide, rfl, by decide, by decide, by decide, by decide⟩

theorem witness_FaultOutcomeIsTheRecordedCause : (Inv midRun ∧ Successful midRun) ∧ Inv faulted ∧ ¬ Successful faulted :=
  ⟨⟨midRun_inv, rfl⟩, faulted_inv, by decide⟩

theorem witness_DecodeOfEncodeIsTheCommand : (Instr.step 255 true).wf 8 = true ∧ (Instr.rdstat .misp).wf 1 = true := by decide

theorem witness_EncodeOfDecodeIsTheWord : decode 8 0x720 = .ok (.step 0x20 true) := rfl

/-- A word of each operation, the reserved forms among them, at the boundary values of `a`. -/
theorem witness_DecoderFollowsTheOpcodeMap : ∀ op < 8, ∀ t < 2, ∀ a ∈ [0, 1, 2, 255],
    op = (BitVec.ofNat (8 + 4) (op * 512 + t * 256 + a)).toNat / 2 ^ (8 + 1) ∧
    t = (BitVec.ofNat (8 + 4) (op * 512 + t * 256 + a)).toNat / 2 ^ 8 % 2 ∧
    a = (BitVec.ofNat (8 + 4) (op * 512 + t * 256 + a)).toNat % 2 ^ 8 := by decide

/-- A table with the first and a middle entry listed and the last one not. -/
theorem witness_TableBumpChangesOneEntry : Memory.wf 2 [(0, 3), (2, 1)] = true := by decide

/-- Addresses that differ in bits 0 and 4 alone, with two address bits. -/
theorem witness_OnlyAddressBitsOfTheIndexMatter : ∀ i, i < midRun.params.m → Nat.testBit 0x13 (i + 2) = Nat.testBit 0x02 (i + 2) := by
  decide

theorem witness_IndexOfEachKind : (tiny.Valid ∧ tiny.kind = .gshare) ∧ (tinyFlat.Valid ∧ tinyFlat.n = 0) ∧
    tinyBimodal.Valid ∧ tinyBimodal.kind = .bimodal := by decide

/-- The history as wide as the index, narrower, and of no width. -/
theorem witness_GshareFoldsHistoryIntoTheTopBits : (2 ≤ 2 ∧ 1 < 2) ∧ (3 ≤ 4 ∧ 2 < 3 ∧ 0 < 4 - 3) ∧ 0 ≤ 4 ∧ 3 < 4 - 0 := by decide

theorem witness_ComputedIndexIsInRange : tiny.Valid ∧ midRun.engine.fault = false ∧
    (∃ e', exec (.predict 0x2C) midRun = .next ⟨tiny, e'⟩) ∧ (∃ e', exec (.update 0x2C true) midRun = .next ⟨tiny, e'⟩) ∧
    (∃ e', exec (.index 0x2C) midRun = .next ⟨tiny, e'⟩) ∧
    ∃ e', exec (.step 0x2C true) atMax = .next ⟨tiny, e'⟩ ∧ e'.fault = true :=
  ⟨by decide, rfl, ⟨_, rfl⟩, ⟨_, rfl⟩, ⟨_, rfl⟩, _, rfl, rfl⟩

theorem witness_IndexLaws : (3 ≤ 4 ∧ 0 ≤ 4) ∧ ∀ i, i < tiny.m → Nat.testBit 0x13 (i + 2) = Nat.testBit 0x02 (i + 2) := by decide

/-- `N` of 1, of more, and of 0. -/
theorem witness_HistoryShiftsRightAndInsertsAtTheTop : 1 ≤ 1 ∧ (1 ≤ 4 ∧ 0 + 1 < 4 ∧ 2 + 1 < 4) ∧ tinyFlat.n = 0 := by decide

/-- A history that a taken outcome changes, and one that it does not. -/
theorem witness_ShiftingFirstWouldSelectAnotherEntry : tiny.Valid ∧ tiny.kind = .gshare ∧
    ghrShift 0b01#2 true ≠ 0b01#2 ∧ ghrShift 0b11#2 true = 0b11#2 := by decide

theorem witness_NopAnswersZero : midRun.Ready ∧ midRun.engine.fault = false := by decide

/-- A counter of 1, one of 3, and the repetition after a command that changes nothing. -/
theorem witness_PredictAnswersTheSelectedCounter : midRun.Ready ∧ midRun.engine.fault = false ∧ tiny.Valid ∧
    (tblRead midRun.engine.table (idx tiny midRun.engine.ghr 0x0C).toNat).toNat = 1 ∧
    (tblRead midRun.engine.table (idx tiny midRun.engine.ghr 0x04).toNat).toNat = 3 ∧
    (∀ i ∈ [Instr.rdhist, .read 3], ReadOnly i) ∧
    ∃ e1 e2, exec (.predict 8) midRun = .next ⟨tiny, e1⟩ ∧ runCommands [.rdhist, .read 3] ⟨tiny, e1⟩ = .next ⟨tiny, e2⟩ ∧
      e2.fault = false :=
  ⟨by decide, rfl, by decide, by decide, by decide, by simp [ReadOnly], _, _, rfl, rfl, rfl⟩

theorem witness_UpdateTrainsTheSelectedEntry : (midRun.Ready ∧ midRun.engine.fault = false) ∧ bimodalRun.Ready ∧
    bimodalRun.engine.fault = false := by decide

/-- One below the maximum, and at it; predicted right and wrong. -/
theorem witness_StepPredictsComparesCountsUpdates : (midRun.Ready ∧ midRun.engine.fault = false ∧
      true = takenOf (tblRead midRun.engine.table (idx tiny midRun.engine.ghr 0x04).toNat) ∧ true = (true != false) ∧
      false = (true != true) ∧ midRun.engine.pred.toNat ≠ 2 ^ tiny.statW - 1 ∧
      midRun.engine.misp.toNat ≤ midRun.engine.pred.toNat) ∧
    atMax.Ready ∧ atMax.engine.fault = false ∧
      false = takenOf (tblRead atMax.engine.table (idx tiny atMax.engine.ghr 0x0C).toNat) ∧ true = (false != true) ∧
      atMax.engine.pred.toNat = 2 ^ tiny.statW - 1 := by decide

theorem witness_IndexAnswersTheIndex : midRun.Ready ∧ midRun.engine.fault = false := by decide

/-- The last entry of the table, the first index outside it, and a run that trains entry 2 and not entry 3. -/
theorem witness_ReadAnswersTheCounterOrFaults : midRun.Ready ∧ midRun.engine.fault = false ∧ 3 < 2 ^ midRun.params.m ∧
    2 ^ midRun.params.m ≤ 4 ∧ (∃ e', runCommands [.update 0x08 true] (State.resetWith tiny) = .next ⟨tiny, e'⟩) ∧
    ∀ (before after : List Instr) (i : Instr) (a : Nat) (t : Bool) (e : Engine tiny),
      [Instr.update 0x08 true] = before ++ i :: after → Trains i a t →
      runCommands before (State.resetWith tiny) = .next ⟨tiny, e⟩ → (idx tiny e.ghr a).toNat ≠ 3 := by
  refine ⟨by decide, rfl, by decide, by decide, ⟨_, rfl⟩, ?_⟩
  intro before after i a t e h ht
  cases before with
  | cons b bs => simp at h
  | nil =>
    simp only [List.nil_append, List.cons.injEq] at h
    obtain ⟨rfl, -⟩ := h
    simp only [Trains, Instr.update.injEq, reduceCtorEq, or_false] at ht
    obtain ⟨rfl, -⟩ := ht
    rintro ⟨⟩
    decide

theorem witness_RdhistAnswersTheHistory : (midRun.Ready ∧ midRun.engine.fault = false) ∧ bimodalRun.Ready ∧
    bimodalRun.engine.fault = false ∧ bimodalRun.params.kind = .bimodal ∧
    (State.resetWith tinyFlat).Ready ∧ (State.resetWith tinyFlat).engine.fault = false ∧ tinyFlat.n = 0 := by decide

theorem witness_RdstatAnswersTheSelectedCount : (1 ≤ 1 ∧ 1 ≤ 8) ∧ midRun.Ready ∧ midRun.engine.fault = false := by decide

/-- A READ inside the table, and one outside it. -/
theorem witness_ReadOnlyCommandsChangeNothing : ReadOnly (.read 3) ∧ ReadOnly (.read 4) ∧ midRun.engine.fault = false ∧
    (∃ s', exec (.read 3) midRun = .next s' ∧ s'.engine.fault = false) ∧
    ∃ s', exec (.read 4) midRun = .next s' ∧ s'.engine.fault = true :=
  ⟨by simp [ReadOnly], by simp [ReadOnly], rfl, ⟨_, rfl, rfl⟩, _, rfl, rfl⟩

theorem witness_UpdateFrame : Memory.wf tiny.m midRun.engine.table = true ∧ midRun.engine.fault = false ∧
    ∃ e', exec (.update 8 true) midRun = .next ⟨tiny, e'⟩ := ⟨by decide, rfl, _, rfl⟩

theorem witness_StepFrame : Memory.wf tiny.m midRun.engine.table = true ∧ midRun.engine.fault = false ∧
    midRun.engine.misp.toNat ≤ midRun.engine.pred.toNat ∧
    (∃ e', exec (.step 8 false) midRun = .next ⟨tiny, e'⟩ ∧ e'.fault = false) ∧
    Memory.wf tiny.m atMax.engine.table = true ∧ atMax.engine.fault = false ∧
    atMax.engine.misp.toNat ≤ atMax.engine.pred.toNat ∧
    ∃ e', exec (.step 8 false) atMax = .next ⟨tiny, e'⟩ ∧ e'.fault = true :=
  ⟨by decide, rfl, by decide, ⟨_, rfl, rfl⟩, by decide, rfl, by decide, _, rfl, rfl⟩

theorem witness_ResetMeetsTheInvariant : tiny.Valid ∧ tinyFlat.Valid ∧ tinyBimodal.Valid ∧ Config.built.Valid := by decide

theorem witness_StepKeepsTheInvariant : Inv midRun ∧ ∃ s', step (midRun.withFetchWord 12 0x720) = .next s' :=
  ⟨midRun_inv, _, rfl⟩

theorem witness_StepIsPredictThenUpdate : tiny.Valid ∧ midRun.engine.beenReset = true ∧ midRun.engine.fault = false ∧
    midRun.engine.pred.toNat < 2 ^ tiny.statW - 1 := by decide

/-- Fewer outcomes than bits of history, and more. -/
theorem witness_HistoryHoldsTheMostRecentOutcomes :
    (∃ e', runCommands [.update 8 true] midRun = .next ⟨tiny, e'⟩ ∧ e'.fault = false) ∧
    (∃ e', runCommands [.step 8 true, .nop, .update 4 false, .step 0 true] (State.resetWith tiny) = .next ⟨tiny, e'⟩ ∧
      e'.fault = false) ∧ 0 < tiny.n ∧ 1 < tiny.n :=
  ⟨⟨_, rfl, rfl⟩, ⟨_, rfl, rfl⟩, by decide, by decide⟩

theorem witness_PredCountsTheSteps : midRun.engine.misp.toNat ≤ midRun.engine.pred.toNat ∧
    (∃ s', runCommands [.step 8 true, .nop] midRun = .next s' ∧ s'.engine.fault = false) ∧
    (∃ s', runCommands [.update 8 true, .rdhist] (State.resetWith tiny) = .next s') ∧
    ∀ i ∈ [Instr.update 8 true, .rdhist], isStep i = false :=
  ⟨by decide, ⟨_, rfl, rfl⟩, ⟨_, rfl⟩, by decide⟩

theorem witness_QueuedCommandsRunInOrder : midRun.Ready ∧ midRun.engine.inputs = [] ∧
    ∀ i ∈ [Instr.step 255 true, .read 4, .nop], i.wf midRun.params.addrW = true := by decide

theorem witness_BimodalTrainingOfDifferentEntriesCommutes : tinyBimodal.kind = .bimodal ∧
    Memory.wf tinyBimodal.m bimodalRun.engine.table = true ∧ abits tinyBimodal.m 0x0C ≠ abits tinyBimodal.m 0x04 ∧
    Trains (.step 0x0C true) 0x0C true ∧ Trains (.update 0x04 false) 0x04 false ∧
    (∃ e1, runCommands [.step 0x0C true, .update 0x04 false] bimodalRun = .next ⟨tinyBimodal, e1⟩ ∧ e1.fault = false) ∧
    ∃ e2, runCommands [.update 0x04 false, .step 0x0C true] bimodalRun = .next ⟨tinyBimodal, e2⟩ ∧ e2.fault = false :=
  ⟨rfl, by decide, by decide, .inr rfl, .inl rfl, ⟨_, rfl, rfl⟩, _, rfl, rfl⟩

theorem witness_GshareWithoutHistoryIsBimodal : tinyFlat.kind = .gshare ∧ tinyFlat.n = 0 ∧ tinyFlat.Valid ∧
    (Engine.reset tinyFlat).beenReset = true := by decide

/-- 15 records fill a 4-bit count from reset, and 1 fills it from a count of 14. -/
theorem witness_TraceRunsToItsEndAndCountsEveryRecord : tiny.Valid ∧
    ((Engine.reset tiny).beenReset = true ∧ (Engine.reset tiny).fault = false ∧
      (Engine.reset tiny).misp.toNat ≤ (Engine.reset tiny).pred.toNat ∧ (Engine.reset tiny).pred.toNat +
        (List.replicate 15 ({ address := 8, outcome := false } : TraceRecord)).length < 2 ^ tiny.statW) ∧
    midRun.engine.beenReset = true ∧ midRun.engine.fault = false ∧
      midRun.engine.misp.toNat ≤ midRun.engine.pred.toNat ∧
      midRun.engine.pred.toNat + [({ address := 8, outcome := false } : TraceRecord)].length < 2 ^ tiny.statW := by decide

theorem witness_FinalTableIsReadInAscendingOrder : (3, (2 : Counter)) ∈ finalTable midRun ∧ midRun.Ready ∧
    midRun.engine.fault = false := by decide

theorem witness_MispredictionRateIsPartial : ∃ q, mispredictionRate midRun = some q := ⟨_, rfl⟩

end Sys2Proof.Tests
end

section
/-! PROOF. The state right after reset (R30). -/

namespace Sys2Proof.Proofs
open Sys2Proof.Machine

/-- R22, R30: the table of a reset engine lists no entry, so each reads as the reset content. -/
@[simp] theorem tblRead_reset (p : Params) (i : Nat) : tblRead (Engine.reset p).table i = 2 := by
  rw [Engine.reset_table, tblRead_nil, Memory.initial]

/-- Settles O1, element by element from the reset lemmas of the engine. -/
theorem resetGivesEveryElementItsValue : Obligations.ResetGivesEveryElementItsValue := by
  intro p
  rw [State.resetWith_engine]
  exact ⟨tblRead_reset p, Engine.reset_ghr, Engine.reset_pred, Engine.reset_misp, Engine.reset_fault,
    Engine.reset_fcause⟩

end Sys2Proof.Proofs
end

section
/-! PROOF. The decoder as the case analysis of R67 on the fields of a command word, read as numbers (R61). -/

namespace Sys2Proof.Proofs

/-! The three fields by division and remainder. -/

section Fields
variable {addrW : Nat} (w : CmdWord addrW)

/-- The quotient that is the field `op` has no more than three bits, as the word has `ADDR_W + 4`. -/
theorem opQuotient_lt : w.toNat / 2 ^ (addrW + 1) < 8 := by
  rw [Nat.div_lt_iff_lt_mul (by positivity), show 8 * 2 ^ (addrW + 1) = 2 ^ (addrW + 4) by ring]
  exact w.isLt

theorem cmdOp_toNat : (cmdOp w).toNat = w.toNat / 2 ^ (addrW + 1) := by
  rw [cmdOp, BitVec.extractLsb'_toNat, Nat.shiftRight_eq_div_pow]
  exact Nat.mod_eq_of_lt (opQuotient_lt w)

theorem cmdT_eq_beq : cmdT w = (w.toNat / 2 ^ addrW % 2 == 1) := by
  rw [cmdT, ← BitVec.testBit_toNat, Nat.testBit_eq_decide_div_mod_eq, beq_eq_decide]

theorem cmdA_eq_mod : cmdA w = w.toNat % 2 ^ addrW := by
  rw [cmdA, BitVec.extractLsb'_toNat, Nat.shiftRight_zero]

/-- An operation is the one of a word as soon as its code is the number in the field `op`. -/
theorem ofCode_cmdOp_of_toNat {o : Op} (h : w.toNat / 2 ^ (addrW + 1) = o.code.toNat) : Op.ofCode (cmdOp w) = o := by
  have hcode : cmdOp w = o.code := BitVec.eq_of_toNat_eq ((cmdOp_toNat w).trans h)
  rw [hcode, Op.ofCode_code]

/-! What the two conditions of R64 leave of a decoded command. -/

theorem needZeroT_toOption (o : Op) (rest : Except ReservedForm Instr) :
    (needZeroT o w rest).toOption = if w.toNat / 2 ^ addrW % 2 = 0 then rest.toOption else none := by
  have hbit : cmdT w = true ↔ ¬ w.toNat / 2 ^ addrW % 2 = 0 := by
    rw [cmdT_eq_beq, beq_iff_eq]
    omega
  simp only [needZeroT, hbit, ite_not, apply_ite Except.toOption]
  rfl

theorem needZeroA_toOption (o : Op) (unused : Nat) (rest : Except ReservedForm Instr) :
    (needZeroA o unused rest).toOption = if unused = 0 then rest.toOption else none := by
  simp only [needZeroA, ne_eq, ite_not, apply_ite Except.toOption]
  rfl

/-- R66: a selector field whose upper bits are 0 is 0 or 1. -/
theorem statSelOfField_of_half_eq_zero {a : Nat} (h : a / 2 = 0) :
    StatSel.ofField a = if a = 0 then .pred else .misp := by
  obtain rfl | rfl : a = 0 ∨ a = 1 := by omega
  · rfl
  · rfl

end Fields

/-- R67: the command of an operation whose word has the fields `t` and `a`, read as numbers; `none` is Reserved. -/
def opcodeMap (o : Op) (t a : Nat) : Option Instr :=
  match o with
  | .nop => if t = 0 ∧ a = 0 then some .nop else none
  | .predict => if t = 0 then some (.predict a) else none
  | .update => some (.update a (t == 1))
  | .step => some (.step a (t == 1))
  | .index => if t = 0 then some (.index a) else none
  | .read => if t = 0 then some (.read a) else none
  | .rdhist => if t = 0 ∧ a = 0 then some .rdhist else none
  | .rdstat => if t = 0 ∧ a / 2 = 0 then some (.rdstat (if a = 0 then .pred else .misp)) else none

/-- The decoder is R67's map of the word's fields, operation by operation. -/
theorem decode_toOption {addrW : Nat} (w : CmdWord addrW) :
    (decode addrW w).toOption =
      opcodeMap (Op.ofCode (cmdOp w)) (w.toNat / 2 ^ addrW % 2) (w.toNat % 2 ^ addrW) := by
  unfold decode opcodeMap
  cases Op.ofCode (cmdOp w) with
  | nop | rdhist =>
    simp only [needZeroT_toOption, needZeroA_toOption, cmdA_eq_mod, ite_and]
    rfl
  | predict | index | read =>
    simp only [needZeroT_toOption, cmdA_eq_mod]
    rfl
  | update | step =>
    simp only [cmdA_eq_mod, cmdT_eq_beq]
    rfl
  | rdstat =>
    simp only [needZeroT_toOption, needZeroA_toOption, cmdA_eq_mod, Nat.shiftRight_one, ite_and]
    by_cases hupper : w.toNat % 2 ^ addrW / 2 = 0
    · rw [if_pos hupper, if_pos hupper, statSelOfField_of_half_eq_zero hupper]
      rfl
    · rw [if_neg hupper, if_neg hupper]

theorem decode_toOption_of_op {addrW : Nat} (w : CmdWord addrW) (o : Op)
    (h : w.toNat / 2 ^ (addrW + 1) = o.code.toNat) :
    (decode addrW w).toOption = opcodeMap o (w.toNat / 2 ^ addrW % 2) (w.toNat % 2 ^ addrW) := by
  rw [decode_toOption, ofCode_cmdOp_of_toNat w h]

/-- Settles O16: each value of `op` is the code of one operation, and the decoder is R67's map at that operation. -/
theorem decoderFollowsTheOpcodeMap : Obligations.DecoderFollowsTheOpcodeMap := by
  rintro addrW w _ _ _ - rfl rfl rfl
  have hmap := decode_toOption_of_op w
  exact ⟨opQuotient_lt w, hmap .nop, hmap .predict, hmap .update, hmap .step, hmap .index, hmap .read, hmap .rdhist,
    hmap .rdstat⟩

end Sys2Proof.Proofs
end

section
/-! PROOF. The counter table (40_counter_table): what a counter predicts and how it saturates (R90, R91), which word is READ
and what READ answers (R65, R94), and the entries that no command has trained. -/

namespace Sys2Proof.Proofs
open Sys2Proof.Machine Sys2Proof.Claims

/-! ### One counter -/

theorem takenOf_iff (c : Counter) : takenOf c = true ↔ 2 ≤ c.toNat := by
  rw [takenOf, decide_eq_true_iff]

/-- R90: the most significant of the two bits is bit 1. -/
theorem takenOf_eq_getLsbD (c : Counter) : takenOf c = c.getLsbD 1 :=
  (takenOf_eq_msb c).trans (BitVec.msb_eq_getLsbD_last c)

/-- Settles O21, from the counter's most significant bit and the bump read as a number, where the truncated subtraction of
the model is the `max` with 0 of R91. -/
theorem counterPredictsAndSaturates : Obligations.CounterPredictsAndSaturates := by
  refine fun c => ⟨takenOf_iff c, takenOf_eq_getLsbD c, ?_, ?_⟩
  · rw [bump_toNat, if_pos rfl, Nat.cast_min, Nat.cast_add_one, Nat.cast_ofNat]
  · rw [bump_toNat, if_neg Bool.false_ne_true]
    omega

/-! ### The word -/

section Word
variable {addrW : Nat} (w : CmdWord addrW)

theorem ofCode_eq_iff {c : BitVec 3} {o : Op} : Op.ofCode c = o ↔ c = o.code := by
  constructor
  · rintro rfl
    exact (Op.code_ofCode c).symm
  · rintro rfl
    exact Op.ofCode_code o

theorem cmdT_eq_false_iff : cmdT w = false ↔ w.toNat / 2 ^ addrW % 2 = 0 := by
  rw [cmdT_eq_beq, beq_eq_false_iff_ne]
  omega

/-- A word decodes to a command exactly when R67's map of its fields gives the command. -/
theorem decode_eq_ok_iff (i : Instr) : decode addrW w = .ok i ↔
    opcodeMap (Op.ofCode (cmdOp w)) (w.toNat / 2 ^ addrW % 2) (w.toNat % 2 ^ addrW) = some i := by
  rw [← decode_toOption]
  cases decode addrW w with
  | ok j => simp [Except.toOption]
  | error r => simp [Except.toOption]

theorem opcodeMap_eq_read_iff {o : Op} {t a k : Nat} :
    opcodeMap o t a = some (.read k) ↔ o = .read ∧ t = 0 ∧ a = k := by
  cases o <;> simp [opcodeMap]

/-- R63, R64: READ is the word with `op` 101 and `t` 0, whatever its index. -/
theorem decode_eq_read_iff (k : Nat) :
    decode addrW w = .ok (.read k) ↔ cmdOp w = 0b101 ∧ cmdT w = false ∧ cmdA w = k := by
  rw [decode_eq_ok_iff, opcodeMap_eq_read_iff, ofCode_eq_iff, ← cmdT_eq_false_iff, ← cmdA_eq_mod, Op.code]

end Word

/-! ### The answer -/

section Answer
variable {p : Params} (e : Engine p)

theorem respond_eq_answer {v : Nat} (d : BitVec v) : e.respond d = { e with resp := answer p.respW d.toNat } := by
  rw [Engine.respond, answer, setWidth_eq_ofNat]

theorem raise_eq_errAnswer (c : Fault) :
    e.raise c = { e with fault := true, fcause := c.code, resp := errAnswer p.respW c.code.toNat } := by
  rw [Engine.raise, Engine.respondFault, errAnswer, setWidth_eq_ofNat]

theorem bodyOf_read_of_lt {k : Nat} (h : k < 2 ^ p.m) :
    bodyOf (.read k) p e = { e with resp := answer p.respW (tblRead e.table k).toNat } := by
  rw [bodyOf, if_neg (Nat.not_le.2 h), respond_eq_answer]

theorem bodyOf_read_of_le {k : Nat} (h : 2 ^ p.m ≤ k) :
    bodyOf (.read k) p e = { e with fault := true, fcause := 1, resp := errAnswer p.respW 1 } := by
  rw [bodyOf, if_pos h, raise_eq_errAnswer]
  rfl

end Answer

/-! ### The entries a run has not trained -/

section Untrained
variable {p : Params}

/-- R44: a command leaves the table as it was, or does to it what training at its address does. -/
theorem bodyOf_table (i : Instr) (e : Engine p) : (bodyOf i p e).table = e.table ∨
    ∃ a t, Trains i a t ∧ (bodyOf i p e).table = (e.train a t).table := by
  cases i with
  | update a t => exact .inr ⟨a, t, .inl rfl, rfl⟩
  | step a t =>
    by_cases hfull : e.statFull = true
    · exact .inl (by simp [bodyOf, hfull])
    · exact .inr ⟨a, t, .inr rfl, by simp [bodyOf, hfull]⟩
  | read k => exact .inl (by simp only [bodyOf]; split_ifs <;> rfl)
  | rdstat sel => cases sel <;> exact .inl rfl
  | nop | predict | index | rdhist => exact .inl rfl

/-- What an executed command, of a faulted engine too, does to the table. -/
theorem exec_next_table {i : Instr} {e e' : Engine p} (h : exec i ⟨p, e⟩ = .next ⟨p, e'⟩) : e'.table = e.table ∨
    ∃ a t, Trains i a t ∧ e'.table = (e.train a t).table := by
  obtain ⟨-, -, e1, he, hcases⟩ := exec_next h
  obtain rfl : e' = e1 := by simpa using he
  obtain ⟨-, rfl⟩ | ⟨-, rfl⟩ := hcases
  · exact .inl rfl
  · exact bodyOf_table i e

theorem exec_wf {i : Instr} {e e' : Engine p} (ht : Memory.wf p.m e.table = true)
    (h : exec i ⟨p, e⟩ = .next ⟨p, e'⟩) : Memory.wf p.m e'.table = true := by
  obtain heq | ⟨a, t, -, heq⟩ := exec_next_table h
  · rwa [heq]
  · rw [heq]
    exact train_wf ht a t

/-- A command that does not train entry `k` leaves it. -/
theorem exec_tblRead_of_not_trained {i : Instr} {e e' : Engine p} {k : Nat} (ht : Memory.wf p.m e.table = true)
    (h : exec i ⟨p, e⟩ = .next ⟨p, e'⟩) (hk : ∀ a t, Trains i a t → (idx p e.ghr a).toNat ≠ k) :
    tblRead e'.table k = tblRead e.table k := by
  obtain heq | ⟨a, t, htrains, heq⟩ := exec_next_table h
  · rw [heq]
  · rw [heq, train_table_read ht, if_neg (hk a t htrains).symm]

/-- No UPDATE or STEP of the run of `is` from `e` selects entry `k`. -/
def NeverTrains (k : Nat) (is : List Instr) (e : Engine p) : Prop :=
  ∀ (before after : List Instr) (i : Instr) (a : Nat) (t : Bool) (e1 : Engine p), is = before ++ i :: after →
    Trains i a t → runCommands before ⟨p, e⟩ = .next ⟨p, e1⟩ → (idx p e1.ghr a).toNat ≠ k

theorem NeverTrains.head {k : Nat} {i : Instr} {is : List Instr} {e : Engine p} (h : NeverTrains k (i :: is) e) (a : Nat)
    (t : Bool) (htrains : Trains i a t) : (idx p e.ghr a).toNat ≠ k :=
  h [] is i a t e rfl htrains rfl

theorem NeverTrains.tail {k : Nat} {i : Instr} {is : List Instr} {e e' : Engine p} (h : NeverTrains k (i :: is) e)
    (hexec : exec i ⟨p, e⟩ = .next ⟨p, e'⟩) : NeverTrains k is e' := by
  rintro before after j a t e1 rfl htrains hrun
  exact h (i :: before) after j a t e1 rfl htrains ((runCommands_cons hexec).trans hrun)

/-- A run leaves an entry that none of its commands trains, by induction over the commands from any canonical table. -/
theorem tblRead_of_neverTrains {k : Nat} {is : List Instr} {e e' : Engine p} (ht : Memory.wf p.m e.table = true)
    (hrun : runCommands is ⟨p, e⟩ = .next ⟨p, e'⟩) (hk : NeverTrains k is e) :
    tblRead e'.table k = tblRead e.table k := by
  induction is generalizing e with
  | nil =>
    obtain rfl : e = e' := by simpa [runCommands] using hrun
    rfl
  | cons i is ih =>
    obtain ⟨s1, hexec, hrest⟩ := runCommands_cons_next hrun
    obtain ⟨-, -, e1, rfl, -⟩ := exec_next hexec
    calc tblRead e'.table k = tblRead e1.table k := ih (exec_wf ht hexec) hrest (hk.tail hexec)
      _ = tblRead e.table k := exec_tblRead_of_not_trained ht hexec hk.head

end Untrained

/-- Settles O36: the word from R67's map, the two answers from READ's body, and the untrained entry from the run's frame and
the reset content. -/
theorem readAnswersTheCounterOrFaults : Obligations.ReadAnswersTheCounterOrFaults := by
  refine ⟨fun _ w k => decode_eq_read_iff w k, fun s k ⟨hvalid, hreset⟩ hfault => ?_, fun p k is e' hrun hk => ?_⟩
  · have hexec := exec_of_ready (.read k) hvalid hreset hfault
    exact ⟨fun hin => hexec.trans (by rw [bodyOf_read_of_lt s.engine hin]),
      fun hout => hexec.trans (by rw [bodyOf_read_of_le s.engine hout])⟩
  · exact (tblRead_of_neverTrains (e := Engine.reset p) rfl hrun hk).trans (tblRead_reset p k)

end Sys2Proof.Proofs
end

section
/-! PROOF. Index derivation (41_indexing): which address bits an index is made of (R100), how gshare folds the history into
them (R102), the index an engine uses (R101, R103), and INDEX, which answers it (R105). -/

namespace Sys2Proof.Proofs
open Sys2Proof.Machine Sys2Proof.Claims

/-! ### The address bits -/

theorem abits_toNat_eq_shiftRight_and (m address : Nat) :
    (abits m address).toNat = (address >>> 2) &&& (2 ^ m - 1) := by
  rw [abits, BitVec.toNat_ofNat, Nat.and_two_pow_sub_one_eq_mod]

theorem abits_getLsbD_of_lt {m i : Nat} (address : Nat) (hi : i < m) :
    (abits m address).getLsbD i = address.testBit (i + 2) := by
  rw [abits_getLsbD, decide_eq_true hi, Bool.true_and]

/-- R100: address bits outside `M+1 : 2` are no part of the address bits of the index. -/
theorem abits_congr {m a b : Nat} (h : ∀ i, i < m → a.testBit (i + 2) = b.testBit (i + 2)) : abits m a = abits m b := by
  apply BitVec.eq_of_getLsbD_eq
  intro i hi
  rw [abits_getLsbD_of_lt a hi, abits_getLsbD_of_lt b hi, h i hi]

/-! ### The index of each kind -/

section Kind
variable {p : Params} (h : BitVec p.n) (address : Nat)

theorem idx_of_bimodal (hk : p.kind = .bimodal) : idx p h address = idxBimodal p.m address := by
  rw [idx, hk]

theorem idx_of_gshare (hk : p.kind = .gshare) : idx p h address = idxGshare p.m address h := by
  rw [idx, hk]

end Kind

/-- R103: a history of no width folds nothing in. -/
theorem idxGshare_of_width_zero {m n : Nat} (hn : n = 0) (address : Nat) (h : BitVec n) :
    idxGshare m address h = idxBimodal m address := by
  subst hn
  rw [BitVec.of_length_zero (x := h)]
  exact idxGshare_zero m address

/-- R104: the history, moved to the top of the index, is an `M`-bit value. -/
theorem history_shiftLeft_lt {m n : Nat} (hn : n ≤ m) (h : BitVec n) : h.toNat <<< (m - n) < 2 ^ m := by
  calc h.toNat <<< (m - n) < 2 ^ (n + (m - n)) := Nat.shiftLeft_lt h.isLt
    _ = 2 ^ m := by rw [Nat.add_sub_cancel' hn]

/-- R102 as a formula: neither the extension of the history nor its shift loses a bit. -/
theorem idxGshare_toNat {m n : Nat} (hn : n ≤ m) (address : Nat) (h : BitVec n) :
    (idxGshare m address h).toNat = (abits m address).toNat ^^^ (h.toNat <<< (m - n)) := by
  rw [idxGshare, BitVec.toNat_xor, BitVec.toNat_shiftLeft, BitVec.toNat_setWidth_of_le hn,
    Nat.mod_eq_of_lt (history_shiftLeft_lt hn h)]

/-- With valid parameters the index is that of gshare for either kind, since a bimodal one has no history (R9, R103). -/
theorem idx_eq_idxGshare {p : Params} (hp : p.Valid) (h : BitVec p.n) (address : Nat) :
    idx p h address = idxGshare p.m address h := by
  obtain ⟨-, -, -, -, hbimodal, -⟩ := hp
  cases hk : p.kind with
  | bimodal => rw [idx_of_bimodal h address hk, idxGshare_of_width_zero (hbimodal hk)]
  | gshare => exact idx_of_gshare h address hk

/-! ### Commands at two addresses with the same address bits -/

section SameAddressBits
variable {p : Params} {a b : Nat} (h : abits p.m a = abits p.m b)
include h

theorem idx_congr (g : BitVec p.n) : idx p g a = idx p g b := by
  unfold idx idxGshare idxBimodal
  rw [h]

theorem selected_congr (e : Engine p) : e.selected a = e.selected b := by
  rw [Engine.selected, idx_congr h, Engine.selected]

theorem train_congr (e : Engine p) (t : Bool) : e.train a t = e.train b t := by
  rw [Engine.train, idx_congr h, Engine.train]

theorem bodyOf_predict_congr (e : Engine p) : bodyOf (.predict a) p e = bodyOf (.predict b) p e := by
  simp only [bodyOf, selected_congr h]

theorem bodyOf_update_congr (t : Bool) (e : Engine p) : bodyOf (.update a t) p e = bodyOf (.update b t) p e := by
  simp only [bodyOf, train_congr h]

theorem bodyOf_step_congr (t : Bool) (e : Engine p) : bodyOf (.step a t) p e = bodyOf (.step b t) p e := by
  simp only [bodyOf, selected_congr h, train_congr h]

theorem bodyOf_index_congr (e : Engine p) : bodyOf (.index a) p e = bodyOf (.index b) p e := by
  simp only [bodyOf, idx_congr h]

end SameAddressBits

/-- Commands with the same body have the same outcome in every state, refusals and faults included (R147). -/
theorem exec_congr {i j : Instr} {s : State} (h : ∀ e, bodyOf i s.params e = bodyOf j s.params e) :
    exec i s = exec j s := by
  rw [exec_eq_command, exec_eq_command, funext h]

/-- Settles O24: the bits of the shifted and masked address, and the congruence of the four bodies that see an address
through its address bits alone. -/
theorem onlyAddressBitsOfTheIndexMatter : Obligations.OnlyAddressBitsOfTheIndexMatter := by
  refine ⟨fun m address => ⟨abits_toNat_eq_shiftRight_and m address, fun _ => abits_getLsbD_of_lt address⟩,
    fun s a b t hbits => ?_⟩
  have h : abits s.params.m a = abits s.params.m b := abits_congr hbits
  exact ⟨exec_congr (bodyOf_predict_congr h), exec_congr (bodyOf_update_congr h t), exec_congr (bodyOf_step_congr h t),
    exec_congr (bodyOf_index_congr h)⟩

/-- Settles O25: the one expression is the formula of gshare, whose index both kinds use with valid parameters. -/
theorem indexOfEachKind : Obligations.IndexOfEachKind := by
  intro p h address hp
  refine ⟨idx_of_bimodal h address, idx_of_gshare h address, fun hn => idxGshare_of_width_zero hn address h, rfl, ?_⟩
  have ⟨_, _, _, hn, _⟩ := hp
  rw [idx_eq_idxGshare hp, idxGshare_toNat hn]

/-- Settles O26, from the bits of the gshare index: at `M-N+k` there is history bit `k`, below `M-N` there is none. -/
theorem gshareFoldsHistoryIntoTheTopBits : Obligations.GshareFoldsHistoryIntoTheTopBits := by
  refine fun m n address h hn => ⟨fun k hk => ?_, fun i hi => ?_, idxGshare_toNat hn address h⟩
  · rw [idxGshare_getLsbD address h (by omega), decide_eq_true (Nat.le_add_right _ _), Nat.add_sub_cancel_left,
      Bool.true_and]
  · rw [idxGshare_getLsbD address h (by omega), decide_eq_false (Nat.not_le.2 hi), Bool.false_and, Bool.xor_false]

/-! ### INDEX -/

theorem cmdT_toNat {addrW : Nat} (w : CmdWord addrW) : (cmdT w).toNat = w.toNat / 2 ^ addrW % 2 := by
  cases ht : cmdT w with
  | false => exact ((cmdT_eq_false_iff w).1 ht).symm
  | true =>
    rw [cmdT_eq_beq, beq_iff_eq] at ht
    exact ht.symm

/-- R67's map gives a command exactly for the command's own operation and fields. -/
theorem opcodeMap_eq_some_iff {o : Op} {t : Bool} {a : Nat} {i : Instr} :
    opcodeMap o t.toNat a = some i ↔ o = i.op ∧ t = i.fieldT ∧ a = i.fieldA := by
  constructor
  · cases o with
    | nop | rdhist =>
      simp only [opcodeMap, Option.ite_none_right_eq_some, Option.some.injEq, Bool.toNat_eq_zero]
      rintro ⟨⟨rfl, rfl⟩, rfl⟩
      exact ⟨rfl, rfl, rfl⟩
    | predict | index | read =>
      simp only [opcodeMap, Option.ite_none_right_eq_some, Option.some.injEq, Bool.toNat_eq_zero]
      rintro ⟨rfl, rfl⟩
      exact ⟨rfl, rfl, rfl⟩
    | update | step =>
      simp only [opcodeMap, Option.some.injEq]
      rintro rfl
      exact ⟨rfl, by cases t <;> rfl, rfl⟩
    | rdstat =>
      simp only [opcodeMap, Option.ite_none_right_eq_some, Option.some.injEq, Bool.toNat_eq_zero]
      rintro ⟨⟨rfl, hupper⟩, rfl⟩
      obtain rfl | rfl : a = 0 ∨ a = 1 := by omega
      · exact ⟨rfl, rfl, rfl⟩
      · exact ⟨rfl, rfl, rfl⟩
  · rintro ⟨rfl, rfl, rfl⟩
    cases i with
    | update _ taken | step _ taken => cases taken <;> rfl
    | rdstat sel => cases sel <;> rfl
    | _ => rfl

/-- A word decodes to a command exactly when its three fields are the command's (R61, R67). -/
theorem decode_eq_ok_iff_fields {addrW : Nat} (w : CmdWord addrW) (i : Instr) :
    decode addrW w = .ok i ↔ cmdOp w = i.op.code ∧ cmdT w = i.fieldT ∧ cmdA w = i.fieldA := by
  rw [decode_eq_ok_iff, ← cmdT_toNat, ← cmdA_eq_mod, opcodeMap_eq_some_iff, ofCode_eq_iff]

theorem bodyOf_index_eq_answer {p : Params} (e : Engine p) (a : Nat) :
    bodyOf (.index a) p e = { e with resp := answer p.respW (idx p e.ghr a).toNat } :=
  respond_eq_answer e (idx p e.ghr a)

/-- Settles O35: the word from its three fields, the answer from INDEX's body. -/
theorem indexAnswersTheIndex : Obligations.IndexAnswersTheIndex := by
  refine ⟨fun _ w a => decode_eq_ok_iff_fields w (.index a), fun s a ⟨hvalid, hreset⟩ hfault => ?_⟩
  rw [← bodyOf_index_eq_answer]
  exact exec_of_ready (.index a) hvalid hreset hfault

end Sys2Proof.Proofs
end

section
/-! PROOF. The predictor's own commands (42_predict_update): the history shift (R111), and what PREDICT, UPDATE and
RDHIST answer and leave (R110, R112, R116). -/

namespace Sys2Proof.Proofs
open Sys2Proof.Machine Sys2Proof.Claims

/-! ### The history shift -/

/-- R111 as a formula: the model shifts within `n` bits, so only the inserted outcome has to be seen to fit. -/
theorem ghrShift_toNat {n : Nat} (hn : 1 ≤ n) (h : BitVec n) (t : Bool) :
    (ghrShift h t).toNat = ((h.toNat >>> 1) ||| (t.toNat <<< (n - 1))) &&& (2 ^ n - 1) := by
  have hold : h.toNat >>> 1 % 2 ^ n = h.toNat >>> 1 :=
    Nat.mod_eq_of_lt ((Nat.shiftRight_le h.toNat 1).trans_lt h.isLt)
  have hnew : t.toNat % 2 ^ n = t.toNat := Nat.mod_eq_of_lt (t.toNat_lt.trans_le (Nat.le_self_pow (by omega) 2))
  rw [Nat.and_two_pow_sub_one_eq_mod, Nat.or_mod_two_pow, hold, ghrShift, ofBool_setWidth, BitVec.toNat_or,
    BitVec.toNat_ushiftRight, BitVec.toNat_shiftLeft, BitVec.toNat_ofNat, hnew]

/-- Settles O29, the formula as a number and the bits from the bits of the shift. -/
theorem historyShiftsRightAndInsertsAtTheTop : Obligations.HistoryShiftsRightAndInsertsAtTheTop := by
  refine fun n h t => ⟨fun hn => ghrShift_toNat hn h t, fun hn => ?_, fun i hi => ?_,
    fun hn => BitVec.toNat_of_zero_length hn _⟩
  · rw [ghrShift_getLsbD h t (by omega), if_pos (by omega)]
  · rw [ghrShift_getLsbD h t (by omega), if_neg (by omega)]

/-! ### What each command does -/

section Bodies
variable {p : Params} (e : Engine p)

theorem bodyOf_predict_eq_answer (a : Nat) : bodyOf (.predict a) p e =
    { e with resp := answer p.respW (if 2 ≤ (tblRead e.table (idx p e.ghr a).toNat).toNat then 1 else 0) } := by
  rw [bodyOf, respond_eq_answer, BitVec.toNat_ofBool, takenOf, Bool.toNat, Bool.cond_decide]
  rfl

theorem bodyOf_update_eq_answer (a : Nat) (t : Bool) : bodyOf (.update a t) p e =
    { e with table := tblBump e.table (idx p e.ghr a) t, ghr := ghrShift e.ghr t, resp := answer p.respW 0 } :=
  respond_eq_answer (e.train a t) (0 : BitVec 0)

theorem bodyOf_rdhist_eq_answer : bodyOf .rdhist p e = { e with resp := answer p.respW e.ghr.toNat } :=
  respond_eq_answer e e.ghr

end Bodies

/-- Settles O33: the word from its three fields, the next state from UPDATE's body. -/
theorem updateTrainsTheSelectedEntry : Obligations.UpdateTrainsTheSelectedEntry := by
  refine ⟨fun _ w a t => decode_eq_ok_iff_fields w (.update a t), fun s a t ⟨hvalid, hreset⟩ hfault => ?_⟩
  rw [← bodyOf_update_eq_answer]
  exact exec_of_ready (.update a t) hvalid hreset hfault

/-- R9, R116: an engine of either kind without history bits has the history 0. -/
theorem ghr_toNat_eq_zero {p : Params} (hp : p.Valid) (e : Engine p) (h : p.kind = .bimodal ∨ p.n = 0) :
    e.ghr.toNat = 0 := by
  obtain ⟨-, -, -, -, hbimodal, -⟩ := hp
  exact BitVec.toNat_of_zero_length (h.elim hbimodal id) e.ghr

/-- Settles O37: the word from its three fields, the answer from RDHIST's body. -/
theorem rdhistAnswersTheHistory : Obligations.RdhistAnswersTheHistory := by
  refine ⟨fun _ w => decode_eq_ok_iff_fields w .rdhist,
    fun s ⟨hvalid, hreset⟩ hfault => ⟨?_, ghr_toNat_eq_zero hvalid s.engine⟩⟩
  rw [← bodyOf_rdhist_eq_answer]
  exact exec_of_ready .rdhist hvalid hreset hfault

/-! ### PREDICT again

`Engine.idle` forgets the last response, so two engines with the same `idle` differ in nothing else. -/

section Repeated
variable {p : Params}

/-- What PREDICT does has nothing to do with the last response. -/
theorem bodyOf_predict_congr_idle {e e' : Engine p} (h : e.idle = e'.idle) (a : Nat) :
    bodyOf (.predict a) p e = bodyOf (.predict a) p e' := by
  change bodyOf (.predict a) p e.idle = bodyOf (.predict a) p e'.idle
  rw [h]

/-- R117 (a): a read-only command that does not fault changes the response alone. -/
theorem bodyOf_idle_of_readOnly {i : Instr} (hi : ReadOnly i) (e : Engine p) (hf : (bodyOf i p e).fault = false) :
    (bodyOf i p e).idle = e.idle := by
  obtain rfl | ⟨a, rfl⟩ | ⟨a, rfl⟩ | ⟨k, rfl⟩ | rfl | ⟨sel, rfl⟩ := hi
  · rfl
  · rfl
  · rfl
  · by_cases hin : k < 2 ^ p.m
    · rw [bodyOf_read_of_lt e hin]
      rfl
    · simp [bodyOf_read_of_le e (Nat.not_lt.1 hin)] at hf
  · rfl
  · cases sel <;> rfl

/-- A run of read-only commands that ends unfaulted changes the response alone, by induction over the commands. -/
theorem idle_of_run_readOnly {is : List Instr} {e e' : Engine p} (his : ∀ i ∈ is, ReadOnly i)
    (hrun : runCommands is ⟨p, e⟩ = .next ⟨p, e'⟩) (hf : e'.fault = false) : e'.idle = e.idle := by
  induction is generalizing e with
  | nil =>
    obtain rfl : e = e' := by simpa [runCommands] using hrun
    rfl
  | cons i is ih =>
    obtain ⟨hi, hrest⟩ := List.forall_mem_cons.1 his
    obtain ⟨-, -, -, hbody, htail⟩ := runCommands_cons_unfaulted hrun hf
    exact (ih hrest htail).trans (bodyOf_idle_of_readOnly hi e hbody)

/-- R110: PREDICT repeated after read-only commands does what it did first. The first and those between are one run,
which ends unfaulted, so the engine was ready and unfaulted at both. -/
theorem exec_predict_again {e e1 e2 : Engine p} {a : Nat} {is : List Instr} (his : ∀ i ∈ is, ReadOnly i)
    (hfirst : exec (.predict a) ⟨p, e⟩ = .next ⟨p, e1⟩) (hrun : runCommands is ⟨p, e1⟩ = .next ⟨p, e2⟩)
    (hf : e2.fault = false) : exec (.predict a) ⟨p, e2⟩ = .next ⟨p, e1⟩ := by
  have hwhole : runCommands (.predict a :: is) ⟨p, e⟩ = .next ⟨p, e2⟩ := (runCommands_cons hfirst).trans hrun
  obtain ⟨hvalid, hreset, hfault, -, -⟩ := runCommands_cons_unfaulted hwhole hf
  have hidle : e2.idle = e.idle :=
    idle_of_run_readOnly (List.forall_mem_cons.2 ⟨.inr (.inl ⟨a, rfl⟩), his⟩) hwhole hf
  have hreset2 : e2.beenReset = true := (congrArg Engine.beenReset hidle).trans hreset
  rw [exec_of_ready _ hvalid hreset2 hf, bodyOf_predict_congr_idle hidle,
    ← exec_of_ready _ hvalid hreset hfault, hfirst]

end Repeated

/-- Settles O32: the word from its three fields, the answer from PREDICT's body, which after reset selects a counter of
2, and the repeated PREDICT from what read-only commands keep. -/
theorem predictAnswersTheSelectedCounter : Obligations.PredictAnswersTheSelectedCounter := by
  refine ⟨fun _ w a => decode_eq_ok_iff_fields w (.predict a), fun s a ⟨hvalid, hreset⟩ hfault => ?_,
    fun p a hvalid => ?_, fun _ _ _ _ _ _ => exec_predict_again⟩
  · rw [← bodyOf_predict_eq_answer]
    exact exec_of_ready (.predict a) hvalid hreset hfault
  · rw [State.resetWith, exec_of_ready (.predict a) hvalid Engine.reset_beenReset Engine.reset_fault,
      bodyOf_predict_eq_answer, tblRead_reset, if_pos (by decide)]

end Sys2Proof.Proofs
end

section
/-! PROOF. The sequencer and the statistics (43_sequencer_stats): NOP and RDSTAT (R126, R127), STEP in its two cases (R125,
R144), what a run of commands counts (R24, R130), and the misprediction rate (R131). -/

namespace Sys2Proof.Proofs
open Sys2Proof.Machine Sys2Proof.Claims

/-! ### NOP and RDSTAT -/

/-- R127: the word of NOP, whose fields are all 0, has no bit set. -/
theorem encode_nop (addrW : Nat) : encode addrW .nop = 0 := by
  apply BitVec.eq_of_toNat_eq
  simp [encode, packCmd, Instr.op, Op.code, Instr.fieldT, Instr.fieldA]

/-- R127: the all-zero word is NOP's and no other: the fields of a word determine it. -/
theorem decode_eq_nop_iff {addrW : Nat} (w : CmdWord addrW) : decode addrW w = .ok .nop ↔ w = 0 := by
  constructor
  · intro h
    obtain ⟨hop, ht, ha⟩ := (decode_eq_ok_iff_fields w .nop).1 h
    calc w = packCmd (Op.ofCode (cmdOp w)) (cmdT w) (cmdA w) := (packCmd_fields w).symm
      _ = encode addrW .nop := by rw [hop, ht, ha, Op.ofCode_code, encode]
      _ = 0 := encode_nop addrW
  · rintro rfl
    rw [← encode_nop addrW, decode_eq_ok_iff_fields, encode]
    exact ⟨cmdOp_packCmd .., cmdT_packCmd .., by simp [Instr.fieldA]⟩

section Answers
variable {p : Params} (e : Engine p)

theorem bodyOf_nop_eq_answer : bodyOf .nop p e = { e with resp := answer p.respW 0 } :=
  respond_eq_answer e (0 : BitVec 0)

theorem bodyOf_rdstat_pred_eq_answer :
    bodyOf (.rdstat .pred) p e = { e with resp := answer p.respW e.pred.toNat } :=
  respond_eq_answer e e.pred

theorem bodyOf_rdstat_misp_eq_answer :
    bodyOf (.rdstat .misp) p e = { e with resp := answer p.respW e.misp.toNat } :=
  respond_eq_answer e e.misp

end Answers

/-- Settles O31: the word from its fields, the answer from NOP's body. -/
theorem nopAnswersZero : Obligations.NopAnswersZero := by
  refine ⟨fun _ => decode_eq_nop_iff, fun s ⟨hvalid, hreset⟩ hfault => ?_⟩
  rw [← bodyOf_nop_eq_answer]
  exact exec_of_ready .nop hvalid hreset hfault

/-- Settles O38: each word from its three fields, each answer from RDSTAT's body, and the counts of the reset state. -/
theorem rdstatAnswersTheSelectedCount : Obligations.RdstatAnswersTheSelectedCount := by
  refine ⟨fun _ w _ => ⟨decode_eq_ok_iff_fields w (.rdstat .pred), decode_eq_ok_iff_fields w (.rdstat .misp)⟩,
    fun s ⟨hvalid, hreset⟩ hfault => ⟨?_, ?_⟩, fun p => ⟨BitVec.toNat_zero, BitVec.toNat_zero⟩⟩
  · rw [← bodyOf_rdstat_pred_eq_answer]
    exact exec_of_ready (.rdstat .pred) hvalid hreset hfault
  · rw [← bodyOf_rdstat_misp_eq_answer]
    exact exec_of_ready (.rdstat .misp) hvalid hreset hfault

/-! ### STEP -/

/-- R125: the two data bits of STEP as a number. -/
theorem stepData_toNat (miss predicted : Bool) :
    (BitVec.ofBool miss ++ BitVec.ofBool predicted).toNat = predicted.toNat + 2 * miss.toNat := by
  revert miss predicted
  decide

/-- R125: what STEP adds to MISP. -/
theorem ofBool_setWidth_eq_ite (w : Nat) (miss : Bool) :
    (BitVec.ofBool miss).setWidth w = if miss then 1 else 0 := by
  rw [ofBool_setWidth]
  cases miss <;> rfl

section Step
variable {p : Params} {e : Engine p} (a : Nat) (t : Bool)

theorem bodyOf_step_of_room (h : e.pred.toNat ≠ 2 ^ p.statW - 1) : bodyOf (.step a t) p e =
    { e with
      table := tblBump e.table (idx p e.ghr a) t
      ghr := ghrShift e.ghr t
      pred := e.pred + 1
      misp := e.misp + (if takenOf (e.selected a) != t then 1 else 0)
      resp := answer p.respW ((takenOf (e.selected a)).toNat + 2 * (takenOf (e.selected a) != t).toNat) } := by
  have hroom : ¬ e.statFull = true := mt (statFull_iff e).1 h
  rw [bodyOf, if_neg hroom, respond_eq_answer, stepData_toNat, Engine.count, ofBool_setWidth_eq_ite]
  rfl

theorem bodyOf_step_of_full (h : e.pred.toNat = 2 ^ p.statW - 1) : bodyOf (.step a t) p e =
    { e with fault := true, fcause := 3, resp := errAnswer p.respW 3 } := by
  rw [bodyOf, if_pos ((statFull_iff e).2 h), raise_eq_errAnswer]
  rfl

end Step

/-- Settles O34: the word from its three fields, the two cases of STEP from its body. -/
theorem stepPredictsComparesCountsUpdates : Obligations.StepPredictsComparesCountsUpdates := by
  refine ⟨fun _ w a t => decode_eq_ok_iff_fields w (.step a t), ?_⟩
  rintro s a t _ _ ⟨hvalid, hreset⟩ hfault rfl rfl
  have hexec := exec_of_ready (.step a t) hvalid hreset hfault
  exact ⟨fun hroom _ => hexec.trans (by rw [bodyOf_step_of_room a t hroom]; rfl),
    fun hfull => hexec.trans (by rw [bodyOf_step_of_full a t hfull])⟩

/-! ### What commands count -/

/-- R24, R31 (c): from `e` to `e'` PRED has advanced by `n`, and MISP by at most `n` and never down, in integers. -/
structure CountsAdvance {p : Params} (n : Nat) (e e' : Engine p) : Prop where
  pred : e'.pred.toNat = e.pred.toNat + n
  misp_le : e.misp.toNat ≤ e'.misp.toNat
  le_misp : e'.misp.toNat ≤ e.misp.toNat + n

section Counts
variable {p : Params}

theorem CountsAdvance.of_eq {e e' : Engine p} (hpred : e'.pred = e.pred) (hmisp : e'.misp = e.misp) :
    CountsAdvance 0 e e' :=
  ⟨congrArg BitVec.toNat hpred, (congrArg BitVec.toNat hmisp).ge, (congrArg BitVec.toNat hmisp).le⟩

theorem CountsAdvance.trans {m n : Nat} {e e' e'' : Engine p} (h : CountsAdvance m e e') (h' : CountsAdvance n e' e'') :
    CountsAdvance (m + n) e e'' := by
  obtain ⟨hpred, hlo, hhi⟩ := h
  obtain ⟨hpred', hlo', hhi'⟩ := h'
  exact ⟨by omega, by omega, by omega⟩

/-- R31 (c) is kept. -/
theorem CountsAdvance.misp_le_pred {n : Nat} {e e' : Engine p} (h : CountsAdvance n e e')
    (hle : e.misp.toNat ≤ e.pred.toNat) : e'.misp.toNat ≤ e'.pred.toNat := by
  obtain ⟨hpred, -, hhi⟩ := h
  omega

/-- R24: no command but STEP writes PRED or MISP, whether it faults or not. -/
theorem bodyOf_counts_of_not_step {i : Instr} (hi : isStep i = false) (e : Engine p) :
    (bodyOf i p e).pred = e.pred ∧ (bodyOf i p e).misp = e.misp := by
  cases i with
  | step a t => simp [isStep] at hi
  | read k =>
    by_cases hin : k < 2 ^ p.m
    · simp [bodyOf_read_of_lt e hin]
    · simp [bodyOf_read_of_le e (Nat.not_lt.1 hin)]
  | rdstat sel => cases sel <;> exact ⟨rfl, rfl⟩
  | _ => exact ⟨rfl, rfl⟩

/-- A count below one that is not full does not wrap when it is bumped. -/
theorem toNat_add_one_of_le {w : Nat} {x y : BitVec w} (hroom : y.toNat ≠ 2 ^ w - 1) (hle : x.toNat ≤ y.toNat) :
    (x + 1).toNat = x.toNat + 1 := by
  have hy := y.isLt
  have hx : x.toNat + 1 < 2 ^ w := by omega
  simp [BitVec.toNat_add, Nat.mod_eq_of_lt hx]

/-- R125: a STEP with room in PRED counts one prediction and at most one misprediction. Neither count wraps: PRED is below
its maximum, and MISP is no more than PRED. -/
theorem bodyOf_step_countsAdvance {e : Engine p} (a : Nat) (t : Bool) (hroom : e.pred.toNat ≠ 2 ^ p.statW - 1)
    (hle : e.misp.toNat ≤ e.pred.toNat) : CountsAdvance 1 e (bodyOf (.step a t) p e) := by
  have hpred : (e.pred + 1).toNat = e.pred.toNat + 1 := toNat_add_one_of_le hroom le_rfl
  have hmiss : (e.misp + 1).toNat = e.misp.toNat + 1 := toNat_add_one_of_le hroom hle
  rw [bodyOf_step_of_room a t hroom]
  cases takenOf (e.selected a) != t with
  | false => exact ⟨hpred, by simp, by simp⟩
  | true => exact ⟨hpred, hmiss.ge.trans' (Nat.le_succ _), hmiss.le⟩

/-- R24, R125: a command that leaves the engine unfaulted counts one prediction where it is a STEP, and none otherwise. -/
theorem bodyOf_countsAdvance {e : Engine p} (i : Instr) (hle : e.misp.toNat ≤ e.pred.toNat)
    (hf : (bodyOf i p e).fault = false) : CountsAdvance (if isStep i then 1 else 0) e (bodyOf i p e) := by
  cases hi : isStep i with
  | false =>
    obtain ⟨hpred, hmisp⟩ := bodyOf_counts_of_not_step hi e
    exact .of_eq hpred hmisp
  | true =>
    cases i with
    | step a t =>
      refine bodyOf_step_countsAdvance a t (fun hfull => ?_) hle
      simp [bodyOf_step_of_full a t hfull] at hf
    | _ => simp [isStep] at hi

/-- Over commands that end unfaulted PRED advances by the number of STEPs, by induction over the commands. -/
theorem runCommands_countsAdvance {is : List Instr} {e e' : Engine p} (hle : e.misp.toNat ≤ e.pred.toNat)
    (hrun : runCommands is ⟨p, e⟩ = .next ⟨p, e'⟩) (hf : e'.fault = false) :
    CountsAdvance (is.countP isStep) e e' := by
  induction is generalizing e with
  | nil =>
    obtain rfl : e = e' := by simpa [runCommands] using hrun
    exact .of_eq rfl rfl
  | cons i is ih =>
    obtain ⟨-, -, -, hbody, htail⟩ := runCommands_cons_unfaulted hrun hf
    have hfirst := bodyOf_countsAdvance i hle hbody
    rw [List.countP_cons, Nat.add_comm]
    exact hfirst.trans (ih (hfirst.misp_le_pred hle) htail)

/-- R130: without a STEP a run leaves both counts as they were, faulted or not. -/
theorem runCommands_counts_of_no_step {is : List Instr} {e : Engine p} {s' : State} (his : ∀ i ∈ is, isStep i = false)
    (hrun : runCommands is ⟨p, e⟩ = .next s') :
    s'.engine.pred.toNat = e.pred.toNat ∧ s'.engine.misp.toNat = e.misp.toNat := by
  induction is generalizing e with
  | nil =>
    obtain rfl : ⟨p, e⟩ = s' := by simpa [runCommands] using hrun
    exact ⟨rfl, rfl⟩
  | cons i is ih =>
    obtain ⟨hi, hrest⟩ := List.forall_mem_cons.1 his
    obtain ⟨_, hfirst, htail⟩ := runCommands_cons_next hrun
    obtain ⟨-, -, e1, rfl, ⟨-, rfl⟩ | ⟨-, rfl⟩⟩ := exec_next hfirst
    · exact ih (e := e.respondFault) hrest htail
    · obtain ⟨hpred, hmisp⟩ := bodyOf_counts_of_not_step hi e
      rw [← hpred, ← hmisp]
      exact ih hrest htail

end Counts

/-- Settles O46, from what a run of commands counts, and from what one without a STEP keeps of the counts of the reset
state. -/
theorem predCountsTheSteps : Obligations.PredCountsTheSteps := by
  refine ⟨fun s s' is hle hrun hf => ?_, fun p s' is hrun his => ?_⟩
  · obtain ⟨e', rfl⟩ := runCommands_params hrun
    obtain ⟨hpred, hlo, hhi⟩ := runCommands_countsAdvance hle hrun hf
    rw [← List.countP_eq_length_filter]
    exact ⟨hpred, hlo, hhi⟩
  · obtain ⟨hpred, hmisp⟩ := runCommands_counts_of_no_step (e := Engine.reset p) his hrun
    exact ⟨hpred.trans BitVec.toNat_zero, hmisp.trans BitVec.toNat_zero⟩

/-! ### The misprediction rate -/

theorem mispredictionRate_of_zero {s : State} (h : s.engine.pred.toNat = 0) : mispredictionRate s = none :=
  if_pos (BitVec.eq_of_toNat_eq (h.trans BitVec.toNat_zero.symm))

theorem mispredictionRate_of_ne_zero {s : State} (h : s.engine.pred.toNat ≠ 0) :
    mispredictionRate s = some ((s.engine.misp.toNat : ℚ) / s.engine.pred.toNat * 100) :=
  if_neg fun hzero => h ((congrArg BitVec.toNat hzero).trans BitVec.toNat_zero)

/-- Settles O52, at PRED 0 and above it, where PRED divides. -/
theorem mispredictionRateIsPartial : Obligations.MispredictionRateIsPartial := by
  intro s
  by_cases h : s.engine.pred.toNat = 0
  · simp [mispredictionRate_of_zero h, h]
  · refine ⟨by simp [mispredictionRate_of_ne_zero h, h], fun q hq => ?_⟩
    rw [mispredictionRate_of_ne_zero h, Option.some.injEq] at hq
    rw [← hq, mul_right_comm, div_mul_cancel₀ _ (Nat.cast_ne_zero.2 h)]

end Sys2Proof.Proofs
end

section
/-! PROOF. Faults (60_exceptions): which words raise which cause (R141 to R144), what raising one writes, and what a faulted
engine answers (R146). -/

namespace Sys2Proof.Proofs
open Sys2Proof.Machine Sys2Proof.Claims

section Faults
variable {p : Params} {e : Engine p}

/-! ### The words that fault -/

/-- R142 to R144: the condition under which the command word `w` raises a cause in the engine `e`. -/
def WordFaults (w : CmdWord p.addrW) (e : Engine p) : Fault → Prop
  | .indexOutOfRange => ∃ k, decode p.addrW w = .ok (.read k) ∧ 2 ^ p.m ≤ k
  | .reservedCommand => (decode p.addrW w).toOption = none
  | .statOverflow => ∃ a t, decode p.addrW w = .ok (.step a t) ∧ e.pred.toNat = 2 ^ p.statW - 1

theorem decode_toOption_eq_none_iff {addrW : Nat} {w : CmdWord addrW} :
    (decode addrW w).toOption = none ↔ ∃ r, decode addrW w = .error r := by
  cases decode addrW w with
  | ok i => simp [Except.toOption]
  | error r => simp [Except.toOption]

theorem wordBody_of_wordFaults {w : CmdWord p.addrW} {f : Fault} (h : WordFaults w e f) : wordBody p w e = e.raise f := by
  cases f with
  | indexOutOfRange =>
    obtain ⟨k, hdecode, hout⟩ := h
    rw [wordBody_ok hdecode, bodyOf, if_pos hout]
  | reservedCommand =>
    obtain ⟨r, hdecode⟩ := decode_toOption_eq_none_iff.1 h
    exact wordBody_error hdecode
  | statOverflow =>
    obtain ⟨a, t, hdecode, hfull⟩ := h
    rw [wordBody_ok hdecode, bodyOf, if_pos ((statFull_iff e).2 hfull)]

/-- R141: no other word makes an unfaulted engine fault. -/
theorem exists_wordFaults_of_fault {w : CmdWord p.addrW} (hf : e.fault = false) (h : (wordBody p w e).fault = true) :
    ∃ f, WordFaults w e f := by
  cases hdecode : decode p.addrW w with
  | error r => exact ⟨.reservedCommand, decode_toOption_eq_none_iff.2 ⟨r, hdecode⟩⟩
  | ok i =>
    rw [wordBody_ok hdecode] at h
    obtain ⟨hkept, -⟩ | ⟨k, rfl, hout, -⟩ | ⟨a, t, rfl, hfull, -⟩ := bodyOf_cases i e
    · rw [hkept, hf] at h
      cases h
    · exact ⟨.indexOutOfRange, k, hdecode, hout⟩
    · exact ⟨.statOverflow, a, t, hdecode, (statFull_iff e).1 hfull⟩

/-! ### The step that presents a word -/

theorem respondFault_eq_errAnswer (e : Engine p) :
    e.respondFault = { e with resp := errAnswer p.respW e.fcause.toNat } := by
  rw [Engine.respondFault, errAnswer, setWidth_eq_ofNat]

section Presented
variable {c : PortIn p.addrW} {rest : List (PortIn p.addrW)}

/-- R71, R147: the step of a presented word is the word's body under the dispatch. -/
theorem step_of_presented (hv : p.Valid) (hi : e.inputs = c :: rest) (hr : c.rst = false) (hc : c.cmdValid = true) :
    step ⟨p, e⟩ = command ⟨p, { e with inputs := rest }⟩ (wordBody p c.cmd) := by
  rw [step_of_cons hv hi, if_neg (by simp [hr]), if_pos hc]

/-- R146: a ready, faulted engine answers its cause to every presented word and changes nothing. -/
theorem step_of_presented_of_fault (hready : State.Ready ⟨p, e⟩) (hf : e.fault = true) (hi : e.inputs = c :: rest)
    (hr : c.rst = false) (hc : c.cmdValid = true) :
    step ⟨p, e⟩ = .next ⟨p, { e with resp := errAnswer p.respW e.fcause.toNat, inputs := rest }⟩ := by
  rw [step_of_presented hready.1 hi hr hc, command_of_fault (s := ⟨p, { e with inputs := rest }⟩) hready hf,
    respondFault_eq_errAnswer]

/-- A presented word that faults a ready, unfaulted engine writes what `raise` writes. -/
theorem step_of_wordFaults {f : Fault} (hready : State.Ready ⟨p, e⟩) (hf : e.fault = false) (hi : e.inputs = c :: rest)
    (hr : c.rst = false) (hc : c.cmdValid = true) (h : WordFaults c.cmd e f) :
    step ⟨p, e⟩ = .next ⟨p, Engine.raise { e with inputs := rest } f⟩ := by
  rw [step_of_presented hready.1 hi hr hc, ← wordBody_of_wordFaults (e := { e with inputs := rest }) h]
  exact command_of_ready (s := ⟨p, { e with inputs := rest }⟩) hready hf _

/-- A step that presents a word and completes began in a ready state. -/
theorem ready_of_step_presented {s' : State} (hi : e.inputs = c :: rest) (hr : c.rst = false) (hc : c.cmdValid = true)
    (hstep : step ⟨p, e⟩ = .next s') : State.Ready ⟨p, e⟩ := by
  have hv := (step_next hstep).1
  rw [step_of_presented hv hi hr hc] at hstep
  exact (command_next hstep).1

end Presented

/-- A step that makes an unfaulted engine fault presents a word that faults, and raises its cause. -/
theorem step_raises {s' : State} (hf : e.fault = false) (hstep : step ⟨p, e⟩ = .next s') (hf' : s'.engine.fault = true) :
    ∃ (f : Fault) (c : PortIn p.addrW) (rest : List (PortIn p.addrW)), e.inputs = c :: rest ∧ c.rst = false ∧
      c.cmdValid = true ∧ WordFaults c.cmd e f ∧ s' = ⟨p, Engine.raise { e with inputs := rest } f⟩ := by
  obtain ⟨-, e', rfl, ⟨-, rfl⟩ | ⟨c, rest, hi, hcycle⟩⟩ := step_next hstep
  · simp [hf] at hf'
  · obtain ⟨-, rfl⟩ | ⟨-, -, rfl⟩ | ⟨hr, hc, -, ⟨hfault, -⟩ | ⟨-, rfl⟩⟩ := hcycle
    · simp at hf'
    · simp [hf] at hf'
    · simp [hf] at hfault
    · obtain ⟨f, hcause⟩ := exists_wordFaults_of_fault (e := { e with inputs := rest }) hf hf'
      exact ⟨f, c, rest, hi, hr, hc, hcause, by rw [wordBody_of_wordFaults hcause]⟩

end Faults

/-- Settles O9: the faulted half from the dispatch of a command and of a presented word, the raising half from what the
step that faults raises. -/
theorem faultIsPreciseAndFreezesTheEngine : Obligations.FaultIsPreciseAndFreezesTheEngine := by
  refine ⟨fun s hready hf => ⟨fun i => ?_, fun c rest hi hr hc => ?_⟩, fun s s' hf hstep hf' => ?_⟩
  · rw [← respondFault_eq_errAnswer]
    exact exec_of_fault i hready.1 hready.2 hf
  · exact step_of_presented_of_fault hready hf hi hr hc
  · obtain ⟨f, c, rest, hi, -, -, -, rfl⟩ := step_raises hf hstep hf'
    exact ⟨f, c, rest, hi, by rw [raise_eq_errAnswer]⟩

/-- Settles O12: a step that faults presents a word that faults, and such a word, by its cause, makes the step fault. -/
theorem faultsAreExactlyTheThreeCauses : Obligations.FaultsAreExactlyTheThreeCauses := by
  intro p e e' hf hstep
  constructor
  · intro hf'
    obtain ⟨f, c, rest, hi, hr, hc, hcause, he⟩ := step_raises hf hstep hf'
    obtain rfl : e' = Engine.raise { e with inputs := rest } f := by simpa using he
    refine ⟨c, rest, hi, hr, hc, ?_⟩
    cases f with
    | reservedCommand => exact .inl ⟨hcause, rfl⟩
    | indexOutOfRange =>
      obtain ⟨k, hdecode, hout⟩ := hcause
      exact .inr (.inl ⟨k, hdecode, hout, rfl⟩)
    | statOverflow =>
      obtain ⟨a, t, hdecode, hfull⟩ := hcause
      exact .inr (.inr ⟨a, t, hdecode, hfull, rfl⟩)
  · rintro ⟨c, rest, hi, hr, hc, hcause⟩
    have hraised (f : Fault) (h : WordFaults c.cmd e f) : e'.fault = true := by
      rw [step_of_wordFaults (ready_of_step_presented hi hr hc hstep) hf hi hr hc h] at hstep
      obtain rfl : Engine.raise { e with inputs := rest } f = e' := by simpa using hstep
      exact Engine.raise_fault _ f
    obtain ⟨hreserved, -⟩ | ⟨k, hdecode, hout, -⟩ | ⟨a, t, hdecode, hfull, -⟩ := hcause
    · exact hraised .reservedCommand hreserved
    · exact hraised .indexOutOfRange ⟨k, hdecode, hout⟩
    · exact hraised .statOverflow ⟨a, t, hdecode, hfull⟩

/-- Settles O5: a reserved word is one that faults with ReservedCommand. -/
theorem reservedWordRaisesReservedCommand : Obligations.ReservedWordRaisesReservedCommand := by
  intro s c rest r hready hf hi hr hc hdecode
  have hcause : WordFaults c.cmd s.engine .reservedCommand := decode_toOption_eq_none_iff.2 ⟨r, hdecode⟩
  have hstep := step_of_wordFaults hready hf hi hr hc hcause
  rw [raise_eq_errAnswer] at hstep
  exact hstep

end Sys2Proof.Proofs
end

section
/-! PROOF. A cycle with `rst = 1` (R165, R167). -/

namespace Sys2Proof.Proofs
open Sys2Proof.Machine

section ResetCycle
variable {p : Params} {e : Engine p}

/-- R22, R165: reset leaves every counter at the reset content. -/
theorem tblRead_applyReset (e : Engine p) (i : Nat) : tblRead e.applyReset.table i = 2 := tblRead_reset p i

/-- R165, R167: neither the fault flag nor a command on the port has a part in a cycle with `rst = 1`. -/
theorem step_of_rst (hv : p.Valid) {c : PortIn p.addrW} {rest : List (PortIn p.addrW)} (hi : e.inputs = c :: rest)
    (hr : c.rst = true) : step ⟨p, e⟩ = .next ⟨p, Engine.applyReset { e with inputs := rest }⟩ := by
  rw [step_of_cons hv hi, if_pos hr]

end ResetCycle

/-- Settles O2: the step applies the reset, whose elements are then read off one by one. -/
theorem resetCycleRestoresEveryElement : Obligations.ResetCycleRestoresEveryElement := by
  intro s c rest hv hi hr
  exact ⟨_, step_of_rst hv hi hr, tblRead_applyReset _, Engine.applyReset_ghr _, Engine.applyReset_pred _,
    Engine.applyReset_misp _, Engine.applyReset_fault _, Engine.applyReset_fcause _, Engine.applyReset_resp _,
    Engine.applyReset_inputs _⟩

end Sys2Proof.Proofs
end

section
/-! PROOF. Command words (30_encoding): decoding and encoding are inverse to each other on the well-formed commands, the
reserved words (R64), and the match and mask table (section 4). -/

namespace Sys2Proof.Proofs
open Sys2Proof.Machine

/-! ### Decode and encode -/

/-- A well-formed command fits the `a` field; RDSTAT's selector needs the field to have a bit (R66). -/
theorem fieldA_lt_of_wf {addrW : Nat} {i : Instr} (hw : 1 ≤ addrW) (hi : i.wf addrW = true) : i.fieldA < 2 ^ addrW := by
  have hbit : 2 ≤ 2 ^ addrW := Nat.le_self_pow (by omega) 2
  cases i with
  | nop | rdhist => exact Nat.two_pow_pos addrW
  | rdstat sel => cases sel <;> exact hbit.trans_lt' (by decide)
  | _ => exact of_decide_eq_true hi

/-- A command that fits the `a` field is well-formed. -/
theorem wf_of_fieldA_lt {addrW : Nat} {i : Instr} (h : i.fieldA < 2 ^ addrW) : i.wf addrW = true := by
  cases i with
  | nop | rdhist | rdstat => rfl
  | _ => exact decide_eq_true h

/-- Settles O14: packing puts the command's fields into the word, and a word decodes to the command whose fields it has. -/
theorem decodeOfEncodeIsTheCommand : Obligations.DecodeOfEncodeIsTheCommand := by
  intro addrW i hw hi
  rw [decode_eq_ok_iff_fields, encode, cmdOp_packCmd, cmdT_packCmd, cmdA_packCmd,
    Nat.mod_eq_of_lt (fieldA_lt_of_wf hw hi)]
  exact ⟨rfl, rfl, rfl⟩

/-- Settles O15: the fields of the word are those of the command, and they are the whole word. -/
theorem encodeOfDecodeIsTheWord : Obligations.EncodeOfDecodeIsTheWord := by
  intro addrW w i hdecode
  obtain ⟨hop, ht, ha⟩ := (decode_eq_ok_iff_fields w i).1 hdecode
  refine ⟨?_, wf_of_fieldA_lt (ha ▸ cmdA_lt w)⟩
  calc encode addrW i = packCmd (Op.ofCode (cmdOp w)) (cmdT w) (cmdA w) := by
        rw [hop, ht, ha, Op.ofCode_code, encode]
    _ = w := packCmd_fields w

/-! ### Reserved words -/

/-- R64: the fields `t` and `a` with which an operation is reserved. -/
def ReservedFields (o : Op) (t : Bool) (a : Nat) : Prop :=
  match o with
  | .nop | .rdhist => t = true ∨ a ≠ 0
  | .predict | .index | .read => t = true
  | .update | .step => False
  | .rdstat => t = true ∨ a / 2 ≠ 0

theorem opcodeMap_eq_none_iff (o : Op) (t : Bool) (a : Nat) : opcodeMap o t.toNat a = none ↔ ReservedFields o t a := by
  cases o <;> simp [opcodeMap, ReservedFields, imp_iff_not_or]

theorem decode_toOption_eq_none_iff_reservedFields {addrW : Nat} (w : CmdWord addrW) :
    (decode addrW w).toOption = none ↔ ReservedFields (Op.ofCode (cmdOp w)) (cmdT w) (cmdA w) := by
  rw [decode_toOption, ← cmdT_toNat, ← cmdA_eq_mod, opcodeMap_eq_none_iff]

/-- Settles O17: each operation has one code, so the list of R64 has one line for the operation of a word. -/
theorem reservedEncodingsAreExactlyThese : Obligations.ReservedEncodingsAreExactlyThese := by
  intro addrW w
  rw [decode_toOption_eq_none_iff_reservedFields]
  cases hop : Op.ofCode (cmdOp w) <;> simp [ReservedFields, ofCode_eq_iff.1 hop, Op.code]

/-! ### The match and mask table -/

/-- A mask of the bits from `k` up compares those bits alone. -/
theorem and_highMask_eq_iff {n k : Nat} {w v : BitVec n} (hv : v.toNat % 2 ^ k = 0) :
    w &&& (BitVec.allOnes n <<< k) = v ↔ w.toNat / 2 ^ k = v.toNat / 2 ^ k := by
  have hmasked : (w &&& (BitVec.allOnes n <<< k)).toNat = w.toNat / 2 ^ k * 2 ^ k := by
    rw [← BitVec.shiftLeft_ushiftRight, BitVec.toNat_shiftLeft, BitVec.toNat_ushiftRight, Nat.shiftRight_eq_div_pow,
      Nat.shiftLeft_eq, Nat.mod_eq_of_lt ((Nat.div_mul_le_self _ _).trans_lt w.isLt)]
  have hvalue : v.toNat = v.toNat / 2 ^ k * 2 ^ k := (Nat.div_mul_cancel (Nat.dvd_of_mod_eq_zero hv)).symm
  rw [BitVec.toNat_eq, hmasked, hvalue, Nat.mul_left_inj (Nat.two_pow_pos k).ne',
    Nat.mul_div_cancel _ (Nat.two_pow_pos k)]

/-- How many low bits of a word the row of an operation does not compare, at `ADDR_W = 32`. -/
def freeBits : Op → Nat
  | .nop | .rdhist => 0
  | .rdstat => 1
  | .predict | .index | .read => 32
  | .update | .step => 33

/-- Every row's mask is the bits above its free ones, and its value has none of those set. -/
theorem opcodeTable_mask : ∀ r ∈ opcodeTable,
    r.mask = BitVec.allOnes 36 <<< freeBits r.op ∧ r.value.toNat % 2 ^ freeBits r.op = 0 := by
  decide

theorem hits_iff {r : OpcodeRow} (hr : r ∈ opcodeTable) (w : CmdWord 32) :
    r.hits w = true ↔ w.toNat / 2 ^ freeBits r.op = r.value.toNat / 2 ^ freeBits r.op := by
  obtain ⟨hmask, hvalue⟩ := opcodeTable_mask r hr
  rw [OpcodeRow.hits, beq_iff_eq, hmask, and_highMask_eq_iff hvalue]

/-- A row hits the words that have its operation's code and no reserved fields. -/
theorem hits_iff_fields {r : OpcodeRow} (hr : r ∈ opcodeTable) (w : CmdWord 32) :
    r.hits w = true ↔ Op.ofCode (cmdOp w) = r.op ∧ ¬ ReservedFields r.op (cmdT w) (cmdA w) := by
  rw [hits_iff hr, ofCode_eq_iff, ← BitVec.toNat_inj, cmdOp_toNat, cmdA_eq_mod, cmdT_eq_beq]
  revert r
  simp only [opcodeTable, List.forall_mem_cons, List.not_mem_nil, false_implies, implies_true, and_true, freeBits,
    ReservedFields, Op.code, beq_iff_eq, BitVec.reduceToNat, not_false_eq_true]
  have hw := w.isLt
  refine ⟨?_, ?_, ?_, ?_, ?_, ?_, ?_, ?_⟩ <;> omega

/-- A word decodes to a command of operation `o` exactly when it has the code of `o` and no reserved fields. -/
theorem exists_decode_op_iff {addrW : Nat} (w : CmdWord addrW) (o : Op) :
    (∃ i, decode addrW w = .ok i ∧ i.op = o) ↔ Op.ofCode (cmdOp w) = o ∧ ¬ ReservedFields o (cmdT w) (cmdA w) := by
  constructor
  · rintro ⟨i, hdecode, rfl⟩
    have hop : Op.ofCode (cmdOp w) = i.op := ofCode_eq_iff.2 ((decode_eq_ok_iff_fields w i).1 hdecode).1
    rw [← hop, ← decode_toOption_eq_none_iff_reservedFields, hdecode]
    exact ⟨rfl, Option.some_ne_none i⟩
  · rintro ⟨rfl, hlegal⟩
    rw [← decode_toOption_eq_none_iff_reservedFields] at hlegal
    cases hdecode : decode addrW w with
    | error r => exact absurd (by rw [hdecode]; rfl) hlegal
    | ok i => exact ⟨i, rfl, (ofCode_eq_iff.2 ((decode_eq_ok_iff_fields w i).1 hdecode).1).symm⟩

theorem exists_row (o : Op) : ∃ r ∈ opcodeTable, r.op = o := by cases o <;> decide

/-- Settles O18: a row hits the words of its operation without reserved fields, and these are those that decode to a
command of the operation; since every operation has a row, a word that meets none decodes to no command. -/
theorem matchAndMaskTableIsTheDecoder : Obligations.MatchAndMaskTableIsTheDecoder := by
  have hrow (w : CmdWord 32) (r : OpcodeRow) (hr : r ∈ opcodeTable) :
      r.hits w = true ↔ ∃ i, decode 32 w = .ok i ∧ i.op = r.op :=
    (hits_iff_fields hr w).trans (exists_decode_op_iff w r.op).symm
  refine ⟨hrow, fun w => ⟨fun hnone => ?_, fun hreserved r hr => ?_⟩⟩
  · cases hdecode : decode 32 w with
    | error _ => rfl
    | ok i =>
      obtain ⟨r, hr, hop⟩ := exists_row i.op
      have hhit := (hrow w r hr).2 ⟨i, hdecode, hop.symm⟩
      simp [hnone r hr] at hhit
  · rw [Bool.eq_false_iff, ne_eq, hrow w r hr]
    rintro ⟨i, hdecode, -⟩
    rw [hdecode] at hreserved
    cases hreserved

/-! ### Words of the spec -/

/-- Settles O19: each word decodes by evaluation. -/
theorem wordsOfTheSpecDecode : Obligations.WordsOfTheSpecDecode := by
  unfold Obligations.WordsOfTheSpecDecode
  decide

end Sys2Proof.Proofs
end

section
/-! PROOF. The textual form of commands (R69): a written number is read back, and the words of a written line are its
mnemonic, its operands and the comma between them. -/

namespace Sys2Proof.Proofs
open Sys2Proof.Machine

/-! ### Numbers -/

theorem digitVal_ofNat {d : Nat} (hd : d < 10) : digitVal (Char.ofNat (48 + d)) = some d := by
  revert d
  decide

/-- Reading digits most significant first undoes writing them, by induction over the digits written. -/
theorem readDigits_decDigits {fuel n : Nat} (hfuel : n < fuel) (acc : List Char) :
    readDigits 10 (decDigits fuel n acc) 0 = readDigits 10 acc n := by
  induction fuel generalizing n acc with
  | zero => omega
  | succ fuel ih =>
    rw [decDigits]
    split_ifs with hlast
    · simp [readDigits, digitVal_ofNat hlast, hlast]
    · have hdigit : n % 10 < 10 := Nat.mod_lt n (by decide)
      rw [ih (by omega)]
      simp [readDigits, digitVal_ofNat hdigit, hdigit, Nat.div_add_mod']

/-- A character that a written number is made of. -/
def IsDigit (c : Char) : Prop := ∃ d < 10, c = Char.ofNat (48 + d)

/-- A property of the ten digits holds of every digit character. -/
theorem of_isDigit {P : Char → Prop} (hP : ∀ d < 10, P (Char.ofNat (48 + d))) {c : Char} (hc : IsDigit c) : P c := by
  obtain ⟨d, hd, rfl⟩ := hc
  exact hP d hd

theorem isDigit_of_mem_decDigits {fuel n : Nat} {acc : List Char} (hacc : ∀ c ∈ acc, IsDigit c) :
    ∀ c ∈ decDigits fuel n acc, IsDigit c := by
  induction fuel generalizing n acc with
  | zero => exact hacc
  | succ fuel ih =>
    rw [decDigits]
    split_ifs with hlast
    · exact List.forall_mem_cons.2 ⟨⟨n, hlast, rfl⟩, hacc⟩
    · exact ih (List.forall_mem_cons.2 ⟨⟨n % 10, Nat.mod_lt n (by decide), rfl⟩, hacc⟩)

theorem isDigit_of_mem_showNat {n : Nat} : ∀ c ∈ showNat n, IsDigit c :=
  isDigit_of_mem_decDigits (by simp)

theorem decDigits_ne_nil {fuel n : Nat} (hfuel : n < fuel) (acc : List Char) : decDigits fuel n acc ≠ [] := by
  induction fuel generalizing n acc with
  | zero => omega
  | succ fuel ih =>
    rw [decDigits]
    split_ifs with hlast
    · exact List.cons_ne_nil _ _
    · exact ih (by omega) _

theorem showNat_ne_nil (n : Nat) : showNat n ≠ [] := decDigits_ne_nil (Nat.lt_succ_self n) []

/-- A number without an `x` is decimal. -/
theorem readNat_of_not_mem {ds : List Char} (hne : ds ≠ []) (hx : 'x' ∉ ds) : readNat ds = readDigits 10 ds 0 := by
  unfold readNat
  split
  · exact absurd rfl hne
  · simp at hx
  · simp at hx
  · rfl

/-- A written number is read back. -/
theorem readNat_showNat (n : Nat) : readNat (showNat n) = some n := by
  have hx : 'x' ∉ showNat n := fun hmem =>
    of_isDigit (P := (· ≠ 'x')) (by decide) (isDigit_of_mem_showNat _ hmem) rfl
  rw [readNat_of_not_mem (showNat_ne_nil n) hx, showNat, readDigits_decDigits (Nat.lt_succ_self n), readDigits]

/-! ### Words of a line -/

/-- A character that stands inside a word: no blank, no comma and no start of a comment. -/
def inWord (c : Char) : Bool := c != ';' && !isBlank c && c != ','

/-- What `lineWords` can collect as one word. -/
def isWord (w : List Char) : Bool := !w.isEmpty && w.all inWord

theorem isWord_iff {w : List Char} : isWord w = true ↔ w ≠ [] ∧ ∀ c ∈ w, inWord c = true := by
  simp [isWord]

theorem isWord_showNat (n : Nat) : isWord (showNat n) = true :=
  isWord_iff.2 ⟨showNat_ne_nil n, fun c hc =>
    of_isDigit (P := (inWord · = true)) (by decide) (isDigit_of_mem_showNat c hc)⟩

theorem lineWords_cons_of_inWord {c : Char} (hc : inWord c = true) (cs word : List Char) :
    lineWords (c :: cs) word = lineWords cs (word ++ [c]) := by
  simp only [inWord, Bool.and_eq_true, bne_iff_ne, ne_eq, Bool.not_eq_true'] at hc
  obtain ⟨⟨hcomment, hblank⟩, hcomma⟩ := hc
  rw [lineWords, if_neg hcomment, hblank, if_neg Bool.false_ne_true, if_neg hcomma]

/-- The characters of a word are collected one after the other. -/
theorem lineWords_append {w : List Char} (hw : ∀ c ∈ w, inWord c = true) (rest word : List Char) :
    lineWords (w ++ rest) word = lineWords rest (word ++ w) := by
  induction w generalizing word with
  | nil => rw [List.nil_append, List.append_nil]
  | cons c cs ih =>
    obtain ⟨hc, hcs⟩ := List.forall_mem_cons.1 hw
    rw [List.cons_append, lineWords_cons_of_inWord hc, ih hcs, List.append_assoc, List.singleton_append]

section Word
variable {w : List Char} (hw : isWord w = true) (rest : List Char)
include hw

theorem flushWord_of_isWord : flushWord w = [w] := if_neg (isWord_iff.1 hw).1

theorem lineWords_word_append : lineWords (w ++ rest) [] = lineWords rest w :=
  lineWords_append (isWord_iff.1 hw).2 rest []

/-- A word ends with the line. -/
theorem lineWords_word : lineWords w [] = [w] := by
  rw [← List.append_nil w, lineWords_word_append hw, lineWords, flushWord_of_isWord hw, List.append_nil]

/-- A word ends at a blank. -/
theorem lineWords_word_blank : lineWords (w ++ ' ' :: rest) [] = w :: lineWords rest [] := by
  rw [lineWords_word_append hw, lineWords, if_neg (by decide), if_pos (by decide), flushWord_of_isWord hw,
    List.singleton_append]

/-- A word ends at a comma, which is a word of its own. -/
theorem lineWords_word_comma : lineWords (w ++ ',' :: rest) [] = w :: [','] :: lineWords rest [] := by
  rw [lineWords_word_append hw, lineWords, if_neg (by decide), if_neg (by decide), if_pos rfl, flushWord_of_isWord hw,
    List.singleton_append]

end Word

/-! ### Lines -/

theorem lineWords_outcome (taken : Bool) : lineWords (' ' :: showOutcome taken) [] = [showOutcome taken] := by
  cases taken <;> rfl

theorem readOutcome_showOutcome (taken : Bool) : readOutcome (showOutcome taken) = some taken := by
  cases taken <;> rfl

section Line
variable {mn : List Char} (hmn : isWord mn = true) {i : Instr} (n : Nat)
include hmn

/-- A line of a mnemonic and a number. -/
theorem readLine_number (h : readWords [mn, showNat n] = some i) : readLine (mn ++ ' ' :: showNat n) = some [i] := by
  rw [readLine, lineWords_word_blank hmn, lineWords_word (isWord_showNat n)]
  simp only [h, Option.map_some]

/-- A line of a mnemonic, a number and an outcome. -/
theorem readLine_number_outcome (taken : Bool)
    (h : readWords [mn, showNat n, [','], showOutcome taken] = some i) :
    readLine (mn ++ ' ' :: (showNat n ++ ',' :: ' ' :: showOutcome taken)) = some [i] := by
  rw [readLine, lineWords_word_blank hmn, lineWords_word_comma (isWord_showNat n), lineWords_outcome]
  simp only [h, Option.map_some]

end Line

/-! ### Commands -/

/-- A number and an outcome after what stands before them, as `lineWords` meets them: one character after another. -/
theorem append_number_outcome (before : List Char) (n : Nat) (taken : Bool) :
    before ++ showNat n ++ ", ".toList ++ showOutcome taken =
      before ++ (showNat n ++ ',' :: ' ' :: showOutcome taken) := by
  rw [List.append_assoc, List.append_assoc]
  rfl

theorem showInstr_update (n : Nat) (taken : Bool) : showInstr (.update n taken) =
    "UPDATE".toList ++ ' ' :: (showNat n ++ ',' :: ' ' :: showOutcome taken) :=
  append_number_outcome "UPDATE ".toList n taken

theorem showInstr_step (n : Nat) (taken : Bool) : showInstr (.step n taken) =
    "STEP".toList ++ ' ' :: (showNat n ++ ',' :: ' ' :: showOutcome taken) :=
  append_number_outcome "STEP ".toList n taken

/-- Settles O20: a line without a number is read by evaluation; in the others the words are the mnemonic, the number, which
is read back, and the outcome. -/
theorem writtenCommandIsReadBack : Obligations.WrittenCommandIsReadBack := by
  intro i
  cases i with
  | nop => rfl
  | rdhist => rfl
  | rdstat sel => cases sel <;> rfl
  | predict n =>
    exact readLine_number (mn := "PREDICT".toList) rfl n (congrArg (Option.map Instr.predict) (readNat_showNat n))
  | index n =>
    exact readLine_number (mn := "INDEX".toList) rfl n (congrArg (Option.map Instr.index) (readNat_showNat n))
  | read n =>
    exact readLine_number (mn := "READ".toList) rfl n (congrArg (Option.map Instr.read) (readNat_showNat n))
  | update n taken =>
    rw [showInstr_update]
    refine readLine_number_outcome rfl n taken ?_
    rw [readWords, if_pos rfl, readNat_showNat, readOutcome_showOutcome]
    rfl
  | step n taken =>
    rw [showInstr_step]
    refine readLine_number_outcome rfl n taken ?_
    rw [readWords, if_pos rfl, readNat_showNat, readOutcome_showOutcome]
    rfl

end Sys2Proof.Proofs
end

section
/-! PROOF. The command port: what one cycle does (R71, R147, R167), that every cycle of a ready engine completes, what a
faulted engine keeps (R146, R150), and that commands driven through the port run in order (R47, R129). -/

namespace Sys2Proof.Proofs
open Sys2Proof.Machine

/-! ### Dispatch -/

theorem command_of_invalid {s : State} (h : ¬ s.params.Valid) (body : Engine s.params → Engine s.params) :
    command s body = .refused .invalidParameters := if_pos h

theorem command_of_no_reset {s : State} (hv : s.params.Valid) (hb : s.engine.beenReset = false)
    (body : Engine s.params → Engine s.params) : command s body = .refused .commandBeforeReset := by
  rw [command, if_neg (not_not_intro hv), if_pos hb]

/-- Every command of a ready engine completes, faulted or not. -/
theorem exists_command_next {s : State} (h : s.Ready) (body : Engine s.params → Engine s.params) :
    ∃ s', command s body = .next s' := by
  cases hf : s.engine.fault with
  | true => exact ⟨_, command_of_fault h hf body⟩
  | false => exact ⟨_, command_of_ready h hf body⟩

section Port
variable {p : Params} {e : Engine p} {c : PortIn p.addrW} {rest : List (PortIn p.addrW)}

/-! ### One cycle -/

/-- R71: a driven cycle that presents no command. -/
theorem step_of_no_command (hv : p.Valid) (hi : e.inputs = c :: rest) (hr : c.rst = false) (hc : c.cmdValid = false) :
    step ⟨p, e⟩ = .next ⟨p, Engine.idle { e with inputs := rest }⟩ := by
  rw [step_of_cons hv hi, if_neg (by simp [hr]), if_neg (by simp [hc])]

/-- R71, R147: the step of a word that decodes to a command is that command, with the cycle taken. -/
theorem step_of_decode {i : Instr} (hv : p.Valid) (hi : e.inputs = c :: rest) (hr : c.rst = false)
    (hc : c.cmdValid = true) (hdecode : decode p.addrW c.cmd = .ok i) :
    step ⟨p, e⟩ = exec i ⟨p, { e with inputs := rest }⟩ := by
  rw [step_of_presented hv hi hr hc, exec_eq_command]
  exact congrArg (command _) (funext fun _ => wordBody_ok hdecode)

/-- R49, R71: every step of a ready engine completes. -/
theorem exists_step_next (h : State.Ready ⟨p, e⟩) : ∃ s', step ⟨p, e⟩ = .next s' := by
  cases hi : e.inputs with
  | nil => exact ⟨_, step_of_nil h.1 hi⟩
  | cons c rest =>
    rw [step_of_cons h.1 hi]
    split_ifs
    · exact ⟨_, rfl⟩
    · exact exists_command_next (s := ⟨p, { e with inputs := rest }⟩) h _
    · exact ⟨_, rfl⟩

theorem wordBody_beenReset (w : CmdWord p.addrW) (e : Engine p) : (wordBody p w e).beenReset = e.beenReset := by
  cases hdecode : decode p.addrW w with
  | ok i => rw [wordBody_ok hdecode, bodyOf_beenReset]
  | error r => rw [wordBody_error hdecode, Engine.raise_beenReset]

theorem bodyOf_resp_isSome (i : Instr) (e : Engine p) : (bodyOf i p e).resp.isSome = true := by
  obtain ⟨-, -, d, hresp⟩ | ⟨_, -, -, hraise⟩ | ⟨_, _, -, -, hraise⟩ := bodyOf_cases i e
  · rw [hresp, Option.isSome_some]
  · rw [hraise, Engine.raise_resp, Option.isSome_some]
  · rw [hraise, Engine.raise_resp, Option.isSome_some]

/-- R62: every word, a reserved one too, is answered. -/
theorem wordBody_resp_isSome (w : CmdWord p.addrW) (e : Engine p) : (wordBody p w e).resp.isSome = true := by
  cases hdecode : decode p.addrW w with
  | ok i => rw [wordBody_ok hdecode, bodyOf_resp_isSome]
  | error r => rw [wordBody_error hdecode, Engine.raise_resp, Option.isSome_some]

end Port

/-- Settles O3: with nothing driven the step is an idle cycle, and a cycle without a command is one too. -/
theorem idleCycleChangesNothing : Obligations.IdleCycleChangesNothing :=
  fun _ hv => ⟨step_of_nil hv, fun _ _ => step_of_no_command hv⟩

/-- Settles O4: the word's body under the dispatch is the body of the command that it decodes to. -/
theorem stepRunsTheDecodedCommand : Obligations.StepRunsTheDecodedCommand :=
  fun _ _ _ _ => step_of_decode

/-- Settles O6: the dispatch refuses a command of no engine and one before the first reset, and a presented word is under
the same dispatch; a reset cycle is not. -/
theorem noEngineOrNoResetIsRefused : Obligations.NoEngineOrNoResetIsRefused := by
  refine ⟨fun p => ⟨by simp [State.build], fun hv => if_pos hv⟩, fun s i hv => ⟨?_, step_of_invalid hv⟩,
    fun s i hv hb => ?_, fun s c rest hv hb hi => ⟨fun hr hc => ?_, fun hr => ?_⟩⟩
  · rw [exec_eq_command, command_of_invalid hv]
  · rw [exec_eq_command, command_of_no_reset hv hb]
  · exact (step_of_presented hv hi hr hc).trans
      (command_of_no_reset (s := ⟨s.params, { s.engine with inputs := rest }⟩) hv hb _)
  · exact ⟨_, step_of_rst hv hi hr, Engine.applyReset_beenReset _⟩

/-- Settles O8: every next state that a step can answer is has the parameters of the state before. -/
theorem parametersNeverChange : Obligations.ParametersNeverChange := by
  rintro s s' hstep
  obtain ⟨-, e', rfl, -⟩ := step_next hstep
  rfl

/-- Settles O7: a step of a ready engine completes, and of all that it can do, only a presented word is answered. -/
theorem everyStepCompletesAndEveryCommandIsAnswered : Obligations.EveryStepCompletesAndEveryCommandIsAnswered := by
  rintro s hready
  obtain ⟨s', hstep⟩ := exists_step_next hready
  obtain ⟨-, e', rfl, ⟨hi, rfl⟩ | ⟨c, rest, hi, hcycle⟩⟩ := step_next hstep
  · exact ⟨_, hstep, hready.2, by simp [hi]⟩
  · obtain ⟨hr, rfl⟩ | ⟨hr, hc, rfl⟩ | ⟨hr, hc, -, ⟨-, rfl⟩ | ⟨-, rfl⟩⟩ := hcycle
    · exact ⟨_, hstep, rfl, by simp [hi, hr]⟩
    · exact ⟨_, hstep, hready.2, by simp [hi, hc]⟩
    · exact ⟨_, hstep, hready.2, by simp [hi, hr, hc]⟩
    · exact ⟨_, hstep, (wordBody_beenReset c.cmd _).trans hready.2, by simp [hi, hr, hc, wordBody_resp_isSome]⟩

/-! ### A faulted engine -/

/-- Settles O11: of all that a step of a faulted engine can do, the reset alone leaves it unfaulted. -/
theorem onlyResetClearsFault : Obligations.OnlyResetClearsFault := by
  rintro s s' hstep hf hf'
  obtain ⟨-, e', rfl, ⟨-, rfl⟩ | ⟨c, rest, hi, hcycle⟩⟩ := step_next hstep
  · simp [hf] at hf'
  · obtain ⟨hr, -⟩ | ⟨-, -, rfl⟩ | ⟨-, -, -, ⟨-, rfl⟩ | ⟨hf0, -⟩⟩ := hcycle
    · exact ⟨c, rest, hi, hr⟩
    · simp [hf] at hf'
    · simp [hf] at hf'
    · simp [hf] at hf0

/-- R146: the elements of state that a faulted engine keeps, with the mark of the reset. -/
structure SameElements {p : Params} (e e' : Engine p) : Prop where
  table : e'.table = e.table
  ghr : e'.ghr = e.ghr
  pred : e'.pred = e.pred
  misp : e'.misp = e.misp
  fault : e'.fault = e.fault
  fcause : e'.fcause = e.fcause
  beenReset : e'.beenReset = e.beenReset

section Faulted
variable {p : Params}

theorem SameElements.refl (e : Engine p) : SameElements e e := ⟨rfl, rfl, rfl, rfl, rfl, rfl, rfl⟩

theorem SameElements.of_ports (e : Engine p) (resp : Option (Response p.respW)) (inputs : List (PortIn p.addrW)) :
    SameElements e { e with resp := resp, inputs := inputs } := ⟨rfl, rfl, rfl, rfl, rfl, rfl, rfl⟩

theorem SameElements.trans {e e' e'' : Engine p} (h : SameElements e e') (h' : SameElements e' e'') :
    SameElements e e'' :=
  ⟨h'.table.trans h.table, h'.ghr.trans h.ghr, h'.pred.trans h.pred, h'.misp.trans h.misp, h'.fault.trans h.fault,
    h'.fcause.trans h.fcause, h'.beenReset.trans h.beenReset⟩

/-- R146: a step of a faulted engine without a reset takes the cycle and keeps every element. -/
theorem step_of_faulted {e : Engine p} (hready : State.Ready ⟨p, e⟩) (hf : e.fault = true)
    (hrst : ∀ c ∈ e.inputs.take 1, c.rst = false) :
    ∃ e' : Engine p, step ⟨p, e⟩ = .next ⟨p, e'⟩ ∧ SameElements e e' ∧ e'.inputs = e.inputs.drop 1 := by
  obtain ⟨s', hstep⟩ := exists_step_next hready
  obtain ⟨-, e', rfl, ⟨hi, rfl⟩ | ⟨c, rest, hi, hcycle⟩⟩ := step_next hstep
  · exact ⟨_, hstep, .of_ports e _ _, by simp [hi]⟩
  · have hr : c.rst = false := hrst c (by simp [hi])
    obtain ⟨hr', -⟩ | ⟨-, -, rfl⟩ | ⟨-, -, -, ⟨-, rfl⟩ | ⟨hf', -⟩⟩ := hcycle
    · simp [hr] at hr'
    · exact ⟨_, hstep, .of_ports e _ _, by simp [hi]⟩
    · exact ⟨_, hstep, .of_ports e _ _, by simp [hi]⟩
    · simp [hf] at hf'

/-- R146, R150: so does a run of any number of cycles, by induction over them. -/
theorem runSteps_of_faulted {k : Nat} {e : Engine p} (hready : State.Ready ⟨p, e⟩) (hf : e.fault = true)
    (hrst : ∀ c ∈ e.inputs.take k, c.rst = false) :
    ∃ e' : Engine p, runSteps k ⟨p, e⟩ = .next ⟨p, e'⟩ ∧ SameElements e e' ∧ e'.inputs = e.inputs.drop k := by
  induction k generalizing e with
  | zero => exact ⟨e, rfl, .refl e, rfl⟩
  | succ k ih =>
    obtain ⟨e1, hstep, hsame, hinputs⟩ := step_of_faulted hready hf fun c hc =>
      hrst c (List.take_subset_take_left e.inputs (by omega) hc)
    have hrest : ∀ c ∈ e1.inputs.take k, c.rst = false := fun c hc =>
      hrst c (List.mem_of_mem_drop (i := 1) (by rwa [hinputs, List.take_drop, Nat.add_comm] at hc))
    obtain ⟨e', hrun, hsame', hinputs'⟩ := ih (e := e1) ⟨hready.1, hsame.beenReset.trans hready.2⟩
      (hsame.fault.trans hf) hrest
    exact ⟨e', (runSteps_succ hstep).trans hrun, hsame.trans hsame',
      by rw [hinputs', hinputs, List.drop_drop, Nat.add_comm]⟩

end Faulted

/-- Settles O10, from what a run of a faulted engine keeps. -/
theorem faultedEngineIsFrozenUntilReset : Obligations.FaultedEngineIsFrozenUntilReset := by
  intro k s hready hf hrst
  obtain ⟨e', hrun, hsame, hinputs⟩ := runSteps_of_faulted hready hf hrst
  exact ⟨e', hrun, hsame.table, hsame.ghr, hsame.pred, hsame.misp, hsame.fault.trans hf, hsame.fcause, hinputs⟩

/-! ### Commands through the port -/

/-- What a ready engine does on a command, faulted or not (R146, R147). -/
def effectOf {p : Params} (i : Instr) (e : Engine p) : Engine p := if e.fault then e.respondFault else bodyOf i p e

section Effect
variable {p : Params} (i : Instr) (e : Engine p)

theorem exec_eq_effectOf (hv : p.Valid) (hb : e.beenReset = true) : exec i ⟨p, e⟩ = .next ⟨p, effectOf i e⟩ := by
  unfold effectOf
  split_ifs with hf
  · exact exec_of_fault i hv hb hf
  · exact exec_of_ready i hv hb (by simpa using hf)

theorem runCommands_cons_eq_effectOf {is : List Instr} (hv : p.Valid) (hb : e.beenReset = true) :
    runCommands (i :: is) ⟨p, e⟩ = runCommands is ⟨p, effectOf i e⟩ :=
  runCommands_cons (exec_eq_effectOf i e hv hb)

@[simp] theorem effectOf_inputs : (effectOf i e).inputs = e.inputs := by
  unfold effectOf
  split_ifs
  · rfl
  · exact bodyOf_inputs i e

@[simp] theorem effectOf_beenReset : (effectOf i e).beenReset = e.beenReset := by
  unfold effectOf
  split_ifs
  · rfl
  · exact bodyOf_beenReset i e

/-- The engine with other cycles still to be driven by the host. -/
def drive (rest : List (PortIn p.addrW)) (e : Engine p) : Engine p := { e with inputs := rest }

theorem drive_self : drive e.inputs e = e := rfl

/-- No command looks at what the host will drive next. -/
theorem bodyOf_drive (rest : List (PortIn p.addrW)) : bodyOf i p (drive rest e) = drive rest (bodyOf i p e) := by
  cases i with
  | rdstat sel => cases sel <;> rfl
  | read k =>
    simp only [bodyOf]
    split_ifs <;> rfl
  | step a t =>
    by_cases hfull : e.pred.toNat = 2 ^ p.statW - 1
    · rw [bodyOf_step_of_full a t hfull, bodyOf_step_of_full (e := drive rest e) a t hfull]
      rfl
    · rw [bodyOf_step_of_room a t hfull, bodyOf_step_of_room (e := drive rest e) a t hfull]
      rfl
  | _ => rfl

theorem effectOf_drive (rest : List (PortIn p.addrW)) : effectOf i (drive rest e) = drive rest (effectOf i e) := by
  unfold effectOf
  rw [apply_ite (drive rest), ← bodyOf_drive]
  rfl

end Effect

/-- The cycles that present these commands, one a cycle. -/
def commandCycles (addrW : Nat) (is : List Instr) : List (PortIn addrW) :=
  is.map fun i => PortIn.command (encode addrW i)

/-- R71, R129: the port is a simulation of the fold: after each cycle the engine is the one after the command, but for what
the host has still to drive. By induction over the commands. -/
theorem runSteps_commandCycles {p : Params} {is : List Instr} {e : Engine p} (hv : p.Valid) (hb : e.beenReset = true)
    (hi : e.inputs = []) (hwf : ∀ i ∈ is, i.wf p.addrW = true) :
    runSteps is.length ⟨p, drive (commandCycles p.addrW is) e⟩ = runCommands is ⟨p, e⟩ := by
  induction is generalizing e with
  | nil =>
    rw [commandCycles, List.map_nil, ← hi, drive_self]
    rfl
  | cons i is ih =>
    obtain ⟨hwfi, hwfis⟩ := List.forall_mem_cons.1 hwf
    have hdecode : decode p.addrW (encode p.addrW i) = .ok i := decodeOfEncodeIsTheCommand _ i (by omega) hwfi
    have hstep : step ⟨p, drive (commandCycles p.addrW (i :: is)) e⟩ =
        .next ⟨p, drive (commandCycles p.addrW is) (effectOf i e)⟩ :=
      calc step ⟨p, drive (commandCycles p.addrW (i :: is)) e⟩ = exec i ⟨p, drive (commandCycles p.addrW is) e⟩ :=
            step_of_decode (c := PortIn.command (encode p.addrW i)) hv rfl rfl rfl hdecode
        _ = .next ⟨p, effectOf i (drive (commandCycles p.addrW is) e)⟩ := exec_eq_effectOf i _ hv hb
        _ = .next ⟨p, drive (commandCycles p.addrW is) (effectOf i e)⟩ := by rw [effectOf_drive]
    rw [List.length_cons, runSteps_succ hstep, runCommands_cons_eq_effectOf i e hv hb]
    exact ih ((effectOf_beenReset i e).trans hb) ((effectOf_inputs i e).trans hi) hwfis

/-- Settles O47: to queue the commands of an engine that is driven nothing else is to drive their cycles. -/
theorem queuedCommandsRunInOrder : Obligations.QueuedCommandsRunInOrder := by
  intro s is hready hi hwf
  rw [← runSteps_commandCycles hready.1 hready.2 hi hwf, State.queueCommands, State.queue, hi]
  rfl

end Sys2Proof.Proofs
end

section
/-! PROOF. The invariant (10_state section 8, R62): it holds after reset, and every step keeps it. -/

namespace Sys2Proof.Proofs
open Sys2Proof.Machine Sys2Proof.Safety

section Invariant
variable {p : Params} {e : Engine p}

/-- R30: a reset engine meets the invariant, whatever the host will drive. -/
theorem inv_reset (hv : p.Valid) (inputs : List (PortIn p.addrW)) : Inv ⟨p, { Engine.reset p with inputs := inputs }⟩ :=
  ⟨hv, rfl, rfl, le_rfl, ⟨fun _ => rfl, fun _ => rfl⟩, fun _ hr => by simp at hr⟩

/-- What the host will drive has no part in the invariant. -/
theorem inv_withInputs (h : Inv ⟨p, e⟩) (inputs : List (PortIn p.addrW)) : Inv ⟨p, { e with inputs := inputs }⟩ :=
  ⟨h.valid, h.beenReset, h.table, h.counts, h.cause, h.response⟩

theorem inv_idle (h : Inv ⟨p, e⟩) : Inv ⟨p, e.idle⟩ :=
  ⟨h.valid, h.beenReset, h.table, h.counts, h.cause, fun _ hr => by simp at hr⟩

/-- R146: the answer of a faulted engine reports its cause. -/
theorem inv_respondFault (h : Inv ⟨p, e⟩) (hf : e.fault = true) : Inv ⟨p, e.respondFault⟩ := by
  refine ⟨h.valid, h.beenReset, h.table, h.counts, h.cause, fun r hr => ?_⟩
  obtain rfl : _ = r := by simpa using hr
  exact ⟨hf.symm, fun _ => rfl⟩

/-- R149: raising a fault writes FAULT and a cause that is not 0, and reports them. -/
theorem inv_raise (h : Inv ⟨p, e⟩) (c : Fault) : Inv ⟨p, e.raise c⟩ := by
  refine ⟨h.valid, h.beenReset, h.table, h.counts, by simp, fun r hr => ?_⟩
  obtain rfl : _ = r := by simpa using hr
  exact ⟨rfl, fun _ => rfl⟩

theorem bodyOf_wf (i : Instr) (ht : Memory.wf p.m e.table = true) : Memory.wf p.m (bodyOf i p e).table = true := by
  obtain heq | ⟨a, t, -, heq⟩ := bodyOf_table i e
  · rwa [heq]
  · rw [heq]
    exact train_wf ht a t

/-- A command of an unfaulted engine keeps the invariant: it raises a fault, or it answers with `err = 0` and counts no
more mispredictions than predictions. -/
theorem inv_bodyOf (h : Inv ⟨p, e⟩) (hf : e.fault = false) (i : Instr) : Inv ⟨p, bodyOf i p e⟩ := by
  obtain ⟨hfault, hcause, d, hresp⟩ | ⟨_, -, -, hraise⟩ | ⟨_, _, -, -, hraise⟩ := bodyOf_cases i e
  · have hf' : (bodyOf i p e).fault = false := hfault.trans hf
    refine ⟨h.valid, (bodyOf_beenReset i e).trans h.beenReset, bodyOf_wf i h.table,
      (bodyOf_countsAdvance i h.counts hf').misp_le_pred h.counts, by rw [hfault, hcause]; exact h.cause,
      fun r hr => ?_⟩
    obtain rfl : _ = r := by simpa [hresp] using hr
    exact ⟨hf'.symm, fun herr => by cases herr⟩
  · exact hraise ▸ inv_raise h _
  · exact hraise ▸ inv_raise h _

theorem inv_wordBody (h : Inv ⟨p, e⟩) (hf : e.fault = false) (w : CmdWord p.addrW) : Inv ⟨p, wordBody p w e⟩ := by
  cases hdecode : decode p.addrW w with
  | ok i => exact wordBody_ok (e := e) hdecode ▸ inv_bodyOf h hf i
  | error r => exact wordBody_error (e := e) hdecode ▸ inv_raise h _

end Invariant

/-- Settles O42: no cycle is driven after reset, and the parameters of `State.reset` are a valid tuple. -/
theorem resetMeetsTheInvariant : Obligations.ResetMeetsTheInvariant :=
  ⟨fun _ hv => inv_reset hv [], inv_reset (by decide) []⟩

/-- Settles O43: each of the things that a step can do keeps the invariant. -/
theorem stepKeepsTheInvariant : Obligations.StepKeepsTheInvariant := by
  intro s s' hinv hstep
  obtain ⟨-, e', rfl, ⟨-, rfl⟩ | ⟨c, rest, -, hcycle⟩⟩ := step_next hstep
  · exact inv_idle hinv
  · have htaken := inv_withInputs hinv rest
    obtain ⟨-, rfl⟩ | ⟨-, -, rfl⟩ | ⟨-, -, -, ⟨hf, rfl⟩ | ⟨hf, rfl⟩⟩ := hcycle
    · exact inv_reset hinv.valid rest
    · exact inv_idle htaken
    · exact inv_respondFault htaken hf
    · exact inv_wordBody htaken hf c.cmd

/-! ### The outcome of a run -/

/-- R141: every code but 0 is the code of a cause. -/
theorem exists_code_eq {c : BitVec 2} (hc : c ≠ 0) : ∃ f : Fault, c = f.code := by
  have hcases : c = 1 ∨ c = 2 ∨ c = 3 := by
    revert c
    decide
  obtain rfl | rfl | rfl := hcases
  · exact ⟨.indexOutOfRange, rfl⟩
  · exact ⟨.reservedCommand, rfl⟩
  · exact ⟨.statOverflow, rfl⟩

theorem runOutcome_of_unfaulted {s : State} (hf : s.engine.fault = false) : runOutcome (.next s) = .next s := by
  simp [runOutcome, hf]

theorem runOutcome_of_fault {s : State} {f : Fault} (hf : s.engine.fault = true) (hcause : s.engine.fcause = f.code) :
    runOutcome (.next s) = .fault f := by
  simp [runOutcome, hf, hcause]

/-- Settles O13: by the invariant FCAUSE is not 0 where FAULT is 1, and then it is the code of a cause. -/
theorem faultOutcomeIsTheRecordedCause : Obligations.FaultOutcomeIsTheRecordedCause := by
  refine fun s hinv => ⟨runOutcome_of_unfaulted, fun hf => ?_⟩
  obtain ⟨f, hcause⟩ := exists_code_eq (mt hinv.cause.1 hf)
  exact ⟨f, hcause, runOutcome_of_fault (by simpa using hf) hcause⟩

end Sys2Proof.Proofs
end

section
/-! PROOF. Runs of commands: the history they leave (R114), the trace that runs to its end (R70, R129), and the gshare engine
without history, which runs as the bimodal one (R117 (e)). -/

namespace Sys2Proof.Proofs
open Sys2Proof.Machine Sys2Proof.Claims

/-! ### The history -/

/-- R118: a command that does not fault shifts in the outcome it records, and no other. -/
theorem bodyOf_ghr {p : Params} {i : Instr} {e : Engine p} (hf : (bodyOf i p e).fault = false) :
    (bodyOf i p e).ghr = (outcome? i).toList.foldl ghrShift e.ghr := by
  cases i with
  | read k =>
    simp only [bodyOf]
    split_ifs <;> rfl
  | rdstat sel => cases sel <;> rfl
  | step a t =>
    by_cases hfull : e.pred.toNat = 2 ^ p.statW - 1
    · simp [bodyOf_step_of_full a t hfull] at hf
    · rw [bodyOf_step_of_room a t hfull]
      rfl
  | _ => rfl

theorem outcomes_cons (i : Instr) (is : List Instr) : outcomes (i :: is) = (outcome? i).toList ++ outcomes is := by
  unfold outcomes
  cases hi : outcome? i with
  | none => simp [hi]
  | some t => simp [hi]

/-- R114: over commands that end unfaulted the recorded outcomes are shifted in, oldest first. -/
theorem runCommands_ghr {p : Params} {is : List Instr} {e e' : Engine p} (hrun : runCommands is ⟨p, e⟩ = .next ⟨p, e'⟩)
    (hf : e'.fault = false) : e'.ghr = (outcomes is).foldl ghrShift e.ghr := by
  induction is generalizing e with
  | nil =>
    obtain rfl : e = e' := by simpa [runCommands] using hrun
    rfl
  | cons i is ih =>
    obtain ⟨-, -, -, hbody, htail⟩ := runCommands_cons_unfaulted hrun hf
    rw [ih htail, bodyOf_ghr hbody, outcomes_cons, List.foldl_append]

/-- R111, R114: bit `n-1-j` after shifting outcomes in is the `j`-th most recent of them, or an old bit moved down. -/
theorem foldl_ghrShift_getLsbD {n : Nat} (h : BitVec n) (os : List Bool) {j : Nat} (hj : j < n) :
    (os.foldl ghrShift h).getLsbD (n - 1 - j) =
      if j < os.length then os.reverse.getD j false else h.getLsbD (n - 1 - (j - os.length)) := by
  induction os using List.reverseRecOn generalizing j with
  | nil => simp
  | append_singleton os t ih =>
    rw [List.foldl_append, List.foldl_cons, List.foldl_nil, ghrShift_getLsbD _ t (by omega), List.reverse_append,
      List.length_append]
    cases j with
    | zero =>
      rw [if_pos (by omega), if_pos (by simp)]
      rfl
    | succ j =>
      rw [if_neg (by omega), show n - 1 - (j + 1) + 1 = n - 1 - j by omega, ih (by omega)]
      simp

/-- R114, bit by bit. -/
theorem runCommands_ghr_getLsbD {p : Params} {is : List Instr} {e e' : Engine p}
    (hrun : runCommands is ⟨p, e⟩ = .next ⟨p, e'⟩) (hf : e'.fault = false) {j : Nat} (hj : j < p.n) :
    e'.ghr.getLsbD (p.n - 1 - j) =
      if j < (outcomes is).length then (outcomes is).reverse.getD j false
      else e.ghr.getLsbD (p.n - 1 - (j - (outcomes is).length)) := by
  rw [runCommands_ghr hrun hf, foldl_ghrShift_getLsbD e.ghr (outcomes is) hj]

/-- Settles O45: the run shifts its outcomes into the history, which after reset is 0. -/
theorem historyHoldsTheMostRecentOutcomes : Obligations.HistoryHoldsTheMostRecentOutcomes := by
  refine ⟨fun p e e' is hrun hf j hj => runCommands_ghr_getLsbD hrun hf hj, fun p e' is hrun hf j hj => ?_⟩
  rw [runCommands_ghr_getLsbD (e := Engine.reset p) hrun hf hj]
  split_ifs with hrecorded
  · rfl
  · simp [Nat.not_lt.1 hrecorded]

/-! ### A trace -/

/-- R125: a STEP with room in PRED does not fault. -/
theorem bodyOf_step_fault_of_room {p : Params} {e : Engine p} (a : Nat) (t : Bool)
    (hroom : e.pred.toNat ≠ 2 ^ p.statW - 1) : (bodyOf (.step a t) p e).fault = e.fault := by
  rw [bodyOf_step_of_room a t hroom]

/-- R129: a trace that PRED has room for runs to its end and counts, by induction over its records. -/
theorem runCommands_traceCommands {p : Params} (hv : p.Valid) {records : List TraceRecord} {e : Engine p}
    (hb : e.beenReset = true) (hf : e.fault = false) (hle : e.misp.toNat ≤ e.pred.toNat)
    (hroom : e.pred.toNat + records.length < 2 ^ p.statW) :
    ∃ e' : Engine p, runCommands (traceCommands records) ⟨p, e⟩ = .next ⟨p, e'⟩ ∧ e'.fault = false ∧
      CountsAdvance records.length e e' := by
  induction records generalizing e with
  | nil => exact ⟨e, rfl, hf, .of_eq rfl rfl⟩
  | cons r rs ih =>
    rw [List.length_cons] at hroom
    have hnotfull : e.pred.toNat ≠ 2 ^ p.statW - 1 := by omega
    have hfirst := bodyOf_step_countsAdvance r.address r.outcome hnotfull hle
    have hpred := hfirst.pred
    obtain ⟨e', hrun, hf', hrest⟩ := ih (e := bodyOf (.step r.address r.outcome) p e)
      ((bodyOf_beenReset _ e).trans hb) ((bodyOf_step_fault_of_room _ _ hnotfull).trans hf)
      (hfirst.misp_le_pred hle) (by omega)
    refine ⟨e', (runCommands_cons (exec_of_ready _ hv hb hf)).trans hrun, hf', ?_⟩
    rw [List.length_cons, Nat.add_comm]
    exact hfirst.trans hrest

/-- Settles O50, from the run of a trace. -/
theorem traceRunsToItsEndAndCountsEveryRecord : Obligations.TraceRunsToItsEndAndCountsEveryRecord := by
  intro p e records hv hb hf hle hroom
  obtain ⟨e', hrun, hf', hpred, hlo, hhi⟩ := runCommands_traceCommands hv hb hf hle hroom
  exact ⟨e', hrun, hf', hpred, hlo, hhi⟩

/-! ### No history -/

section Flat
variable {p : Params} (hk : p.kind = .gshare) (hn : p.n = 0) (e : Engine p)
include hk hn

/-- R103: without history the two kinds use one index. -/
theorem idx_bimodal_eq (h : BitVec p.n) (a : Nat) : idx { p with kind := .bimodal } h a = idx p h a := by
  rw [idx_of_gshare h a hk, idxGshare_of_width_zero hn]
  rfl

theorem selected_asBimodal (a : Nat) : (asBimodal e).selected a = e.selected a :=
  congrArg (fun i : BitVec p.m => tblRead e.table i.toNat) (idx_bimodal_eq hk hn e.ghr a)

theorem train_asBimodal (a : Nat) (t : Bool) : (asBimodal e).train a t = asBimodal (e.train a t) :=
  congrArg (fun i : BitVec p.m => asBimodal { e with table := tblBump e.table i t, ghr := ghrShift e.ghr t })
    (idx_bimodal_eq hk hn e.ghr a)

theorem bodyOf_asBimodal (i : Instr) : bodyOf i { p with kind := .bimodal } (asBimodal e) = asBimodal (bodyOf i p e) := by
  cases i with
  | predict a =>
    simp only [bodyOf, selected_asBimodal hk hn]
    rfl
  | index a =>
    exact congrArg (fun k : BitVec p.m => asBimodal (e.respond k)) (idx_bimodal_eq hk hn e.ghr a)
  | update a t =>
    simp only [bodyOf, train_asBimodal hk hn]
    rfl
  | step a t =>
    simp only [bodyOf, selected_asBimodal hk hn, train_asBimodal hk hn]
    rw [apply_ite asBimodal]
    rfl
  | read k =>
    simp only [bodyOf]
    split_ifs <;> rfl
  | rdstat sel => cases sel <;> rfl
  | nop | rdhist => rfl

theorem effectOf_asBimodal (i : Instr) : effectOf i (asBimodal e) = asBimodal (effectOf i e) := by
  unfold effectOf
  rw [apply_ite asBimodal, bodyOf_asBimodal hk hn]
  rfl

/-- R117 (e): the two engines stay the same through any commands, by induction over them. -/
theorem runCommands_asBimodal (hv : p.Valid) (is : List Instr) (hb : e.beenReset = true) :
    ∃ e' : Engine p, runCommands is ⟨p, e⟩ = .next ⟨p, e'⟩ ∧
      runCommands is ⟨{ p with kind := .bimodal }, asBimodal e⟩ = .next ⟨{ p with kind := .bimodal }, asBimodal e'⟩ := by
  have hv' : Params.Valid { p with kind := .bimodal } := by
    obtain ⟨haddr, hm, hma, hnm, -, hwidths⟩ := hv
    exact ⟨haddr, hm, hma, hnm, fun _ => hn, hwidths⟩
  induction is generalizing e with
  | nil => exact ⟨e, rfl, rfl⟩
  | cons i is ih =>
    rw [runCommands_cons_eq_effectOf i e hv hb, runCommands_cons_eq_effectOf i (asBimodal e) hv' hb,
      effectOf_asBimodal hk hn]
    exact ih (effectOf i e) ((effectOf_beenReset i e).trans hb)

end Flat

/-- Settles O49, from the run of the two engines. -/
theorem gshareWithoutHistoryIsBimodal : Obligations.GshareWithoutHistoryIsBimodal :=
  fun _ e is hk hn hv hb => runCommands_asBimodal hk hn e hv is hb

end Sys2Proof.Proofs
end

section
/-! PROOF. The laws of the pure functions: the counter (40_counter_table section 4), the table (R93) and the index
(41_indexing sections 4 and 6). -/

namespace Sys2Proof.Proofs
open Sys2Proof.Machine

/-! ### Counters and the table -/

/-- Settles O22, over the four counters and the two outcomes. -/
theorem bumpLaws : Obligations.BumpLaws := by
  unfold Obligations.BumpLaws
  decide

/-- R95 (c): a counter moves by at most 1. -/
theorem bump_near (c : Counter) (t : Bool) : (bump c t).toNat ≤ c.toNat + 1 ∧ c.toNat ≤ (bump c t).toNat + 1 := by
  obtain ⟨-, -, -, -, -, hnear, -⟩ := bumpLaws c t
  exact hnear

theorem tblRead_tblBump {m : Nat} {t : Memory} (ht : Memory.wf m t = true) (i : BitVec m) (j : Nat) (taken : Bool) :
    tblRead (tblBump t i taken) j = if j = i.toNat then bump (tblRead t i.toNat) taken else tblRead t j :=
  tblRead_tblWrite ht i j _

theorem tblRead_tblBump_same {m : Nat} {t : Memory} (ht : Memory.wf m t = true) (i : BitVec m) (taken : Bool) :
    tblRead (tblBump t i taken) i.toNat = bump (tblRead t i.toNat) taken :=
  tblRead_tblWrite_same ht i _

theorem tblRead_tblBump_other {m : Nat} {t : Memory} (ht : Memory.wf m t = true) {i : BitVec m} (taken : Bool) {j : Nat}
    (hj : j ≠ i.toNat) : tblRead (tblBump t i taken) j = tblRead t j :=
  tblRead_tblWrite_other ht hj _

/-- Settles O23, from what a canonical table reads as after a write. -/
theorem tableBumpChangesOneEntry : Obligations.TableBumpChangesOneEntry :=
  fun _ _ i taken ht =>
    ⟨tblRead_tblBump_same ht i taken, fun _ => tblRead_tblBump_other ht taken, tblBump_wf ht i taken⟩

/-- R95 (c), of every entry of the table. -/
theorem tblRead_tblBump_near {m : Nat} {t : Memory} (ht : Memory.wf m t = true) (i : BitVec m) (taken : Bool) (j : Nat) :
    (tblRead (tblBump t i taken) j).toNat ≤ (tblRead t j).toNat + 1 ∧
      (tblRead t j).toNat ≤ (tblRead (tblBump t i taken) j).toNat + 1 := by
  rw [tblRead_tblBump ht]
  split_ifs with hj
  · subst hj
    exact bump_near _ taken
  · exact ⟨Nat.le_succ _, Nat.le_succ _⟩

/-- Bumps of different entries commute: the two tables read alike, and both are canonical. -/
theorem tblBump_comm {m : Nat} {t : Memory} (ht : Memory.wf m t = true) {i j : BitVec m} (hij : i ≠ j) (x y : Bool) :
    tblBump (tblBump t i x) j y = tblBump (tblBump t j y) i x := by
  have hij' : i.toNat ≠ j.toNat := mt BitVec.eq_of_toNat_eq hij
  have hi := tblBump_wf ht i x
  have hj := tblBump_wf ht j y
  refine Memory.ext (tblBump_wf hi j y) (tblBump_wf hj i x) fun k => ?_
  rw [tblRead_tblBump hi, tblRead_tblBump hj, tblRead_tblBump_other ht x hij'.symm, tblRead_tblBump_other ht y hij',
    tblRead_tblBump ht i k, tblRead_tblBump ht j k]
  split_ifs with hkj hki
  · exact absurd (hki.symm.trans hkj) hij'
  · rfl
  · rfl
  · rfl

/-! ### The index -/

/-- R106 (b): under one history two addresses share an index exactly when they share the address bits. -/
theorem idxGshare_eq_iff_abits_eq {m n : Nat} (a b : Nat) (h : BitVec n) :
    idxGshare m a h = idxGshare m b h ↔ abits m a = abits m b :=
  BitVec.xor_left_inj _

/-- R106 (b): every address bits are those of some address. -/
theorem abits_toNat_shiftLeft {m : Nat} (x : BitVec m) : abits m (x.toNat <<< 2) = x := by
  rw [abits, Nat.shiftLeft_shiftRight, BitVec.ofNat_toNat, BitVec.setWidth_eq]

theorem exists_idxGshare_eq {m n : Nat} (h : BitVec n) (q : BitVec m) : ∃ a, idxGshare m a h = q :=
  ⟨(q ^^^ (h.setWidth m <<< (m - n))).toNat <<< 2, by
    rw [idxGshare, abits_toNat_shiftLeft, BitVec.xor_assoc, BitVec.xor_self, BitVec.xor_zero]⟩

/-- R106 (c): two histories select two entries. -/
theorem idxGshare_eq_iff_history_eq {m n : Nat} (hn : n ≤ m) (address : Nat) (h k : BitVec n) :
    idxGshare m address h = idxGshare m address k ↔ h = k := by
  rw [← BitVec.toNat_inj, idxGshare_toNat hn, idxGshare_toNat hn, Nat.xor_right_inj, Nat.shiftLeft_eq, Nat.shiftLeft_eq,
    Nat.mul_left_inj (Nat.two_pow_pos _).ne', BitVec.toNat_inj]

/-- R106 (d): the low bits of the index are those of the address bits. -/
theorem idxGshare_setWidth {m n : Nat} (address : Nat) (h : BitVec n) :
    (idxGshare m address h).setWidth (m - n) = (abits m address).setWidth (m - n) := by
  apply BitVec.eq_of_getLsbD_eq
  intro i hi
  rw [BitVec.getLsbD_setWidth, BitVec.getLsbD_setWidth, idxGshare_getLsbD address h (by omega),
    abits_getLsbD_of_lt address (by omega), decide_eq_false (Nat.not_le.2 hi), Bool.false_and, Bool.xor_false]

/-- Settles O28, law by law. -/
theorem indexLaws : Obligations.IndexLaws :=
  ⟨fun m _ => idxGshare_zero m, fun _ _ => idxGshare_eq_iff_abits_eq, fun _ _ => exists_idxGshare_eq,
    fun _ _ address h k hn => idxGshare_eq_iff_history_eq hn address h k, fun _ _ address h _ =>
    idxGshare_setWidth address h, fun _ h _ _ hbits => idx_congr (abits_congr hbits) h⟩

/-- Settles O30: the index of gshare tells histories apart. -/
theorem shiftingFirstWouldSelectAnotherEntry : Obligations.ShiftingFirstWouldSelectAnotherEntry := by
  intro p h address t hv hk
  obtain ⟨-, -, -, hn, -⟩ := hv
  rw [idx_of_gshare _ address hk, idx_of_gshare h address hk, ne_eq, idxGshare_eq_iff_history_eq hn]

/-! ### No computed index faults -/

/-- A command of an unfaulted engine that completes is its body. -/
theorem eq_bodyOf_of_exec {p : Params} {e e' : Engine p} {i : Instr} (hf : e.fault = false)
    (h : exec i ⟨p, e⟩ = .next ⟨p, e'⟩) : e' = bodyOf i p e := by
  obtain ⟨hv, hb, -⟩ := exec_next h
  rw [exec_of_ready i hv hb hf] at h
  simpa using h.symm

/-- Settles O27: the shifted history and the address bits are below `2^M`, and so is their XOR; and a STEP faults by its own
cause alone. -/
theorem computedIndexIsInRange : Obligations.ComputedIndexIsInRange := by
  refine ⟨fun p h address hv => ?_, fun p e e' a t hf => ⟨fun hexec => ?_, fun hexec hf' => ?_⟩⟩
  · obtain ⟨-, -, -, hn, -⟩ := hv
    have hhistory := history_shiftLeft_lt hn h
    exact ⟨hhistory, Nat.xor_lt_two_pow (abits p.m address).isLt hhistory⟩
  · obtain hexec | hexec | hexec := hexec
    · exact eq_bodyOf_of_exec hf hexec ▸ hf
    · exact eq_bodyOf_of_exec hf hexec ▸ hf
    · exact eq_bodyOf_of_exec hf hexec ▸ hf
  · obtain rfl := eq_bodyOf_of_exec hf hexec
    obtain ⟨hkept, -⟩ | ⟨_, hread, -⟩ | ⟨_, _, -, -, hraise⟩ := bodyOf_cases (.step a t) e
    · simp [hkept, hf] at hf'
    · cases hread
    · rw [hraise, Engine.raise_fcause]
      decide

end Sys2Proof.Proofs
end

section
/-! PROOF. Frames (R117, R118, R44): what the read-only commands, UPDATE and STEP change and what they leave; STEP beside
PREDICT and UPDATE (R128); training different entries of a bimodal engine (R117 (c)); and the final table (R42, R52). -/

namespace Sys2Proof.Proofs
open Sys2Proof.Machine Sys2Proof.Claims

/-! ### The read-only commands -/

/-- Two engines that are the same but for the response port. -/
theorem eq_withResp_of_idle_eq {p : Params} {e e' : Engine p} (h : e'.idle = e.idle) :
    e' = { e with resp := e'.resp } :=
  congrArg (fun x : Engine p => { x with resp := e'.resp }) h

/-- A command that makes an unfaulted engine fault raises READ's or STEP's own cause. -/
theorem exists_raise_of_fault {p : Params} {i : Instr} {e : Engine p} (hf : e.fault = false)
    (hf' : (bodyOf i p e).fault = true) : ∃ c, bodyOf i p e = e.raise c := by
  obtain ⟨hkept, -⟩ | ⟨_, -, -, hraise⟩ | ⟨_, _, -, -, hraise⟩ := bodyOf_cases i e
  · simp [hkept, hf] at hf'
  · exact ⟨_, hraise⟩
  · exact ⟨_, hraise⟩

/-- Settles O39: unfaulted they change the response alone, and a fault is raised. -/
theorem readOnlyCommandsChangeNothing : Obligations.ReadOnlyCommandsChangeNothing := by
  intro s s' i hi hf hexec
  obtain ⟨-, -, e', rfl, ⟨hf0, -⟩ | ⟨-, rfl⟩⟩ := exec_next hexec
  · simp [hf] at hf0
  · refine ⟨fun hf' => ⟨(bodyOf i s.params s.engine).resp, ?_⟩, fun hf' => ?_⟩
    · exact congrArg (State.mk s.params) (eq_withResp_of_idle_eq (bodyOf_idle_of_readOnly hi s.engine hf'))
    · obtain ⟨c, hraise⟩ := exists_raise_of_fault hf hf'
      exact ⟨_, _, congrArg (State.mk s.params) hraise⟩

/-! ### UPDATE and STEP -/

/-- Settles O40: UPDATE's body is a bump of the table and a shift of the history. -/
theorem updateFrame : Obligations.UpdateFrame := by
  intro p e e' a t ht hf hexec
  obtain rfl := eq_bodyOf_of_exec hf hexec
  rw [bodyOf_update_eq_answer]
  exact ⟨fun j => tblRead_tblBump_other ht t, tblRead_tblBump_same ht _ t, tblRead_tblBump_near ht _ t, rfl, rfl, rfl, rfl,
    rfl, rfl, rfl⟩

/-- R125: MISP in integers, from a state where it does not exceed PRED and PRED has room. -/
theorem misp_add_toNat {w : Nat} {misp pred : BitVec w} (hroom : pred.toNat ≠ 2 ^ w - 1)
    (hle : misp.toNat ≤ pred.toNat) (miss : Bool) : (misp + if miss then 1 else 0).toNat = misp.toNat + miss.toNat := by
  cases miss with
  | false => simp
  | true => exact toNat_add_one_of_le hroom hle

/-- Settles O41: with room in PRED, STEP's body is a bump of the table, a shift of the history and a count; with none it
raises its fault. -/
theorem stepFrame : Obligations.StepFrame := by
  intro p e e' a t ht hf hle hexec
  obtain rfl := eq_bodyOf_of_exec hf hexec
  refine ⟨fun hf' => ?_, fun hf' => ?_, bodyOf_beenReset _ e, bodyOf_inputs _ e⟩
  · have hroom : e.pred.toNat ≠ 2 ^ p.statW - 1 := fun hfull => by simp [bodyOf_step_of_full a t hfull] at hf'
    rw [bodyOf_step_of_room a t hroom]
    exact ⟨fun j => tblRead_tblBump_other ht t, tblRead_tblBump_same ht _ t, rfl, toNat_add_one_of_le hroom le_rfl,
      misp_add_toNat hroom hle _, rfl⟩
  · obtain ⟨c, hraise⟩ := exists_raise_of_fault hf hf'
    rw [hraise]
    exact ⟨rfl, rfl, rfl, rfl⟩

/-! ### STEP beside PREDICT and UPDATE -/

theorem bodyOf_predict_eq_takenOf {p : Params} (e : Engine p) (a : Nat) :
    bodyOf (.predict a) p e = { e with resp := answer p.respW (takenOf (e.selected a)).toNat } := by
  rw [bodyOf, respond_eq_answer, BitVec.toNat_ofBool]

/-- R125: bit 0 of STEP's data is the prediction. -/
theorem stepData_getLsbD_zero (w : Nat) (predicted miss : Bool) :
    (BitVec.ofNat w (predicted.toNat + 2 * miss.toNat)).getLsbD 0 = (BitVec.ofNat w predicted.toNat).getLsbD 0 := by
  simp [BitVec.getLsbD_ofNat, Nat.testBit_zero]

/-- Settles O44: the three bodies, from the same table and history. -/
theorem stepIsPredictThenUpdate : Obligations.StepIsPredictThenUpdate := by
  intro p e a t hv hb hf hpred
  have hroom : e.pred.toNat ≠ 2 ^ p.statW - 1 := hpred.ne
  have hstep := exec_of_ready (.step a t) hv hb hf
  have hpredict := exec_of_ready (.predict a) hv hb hf
  rw [bodyOf_step_of_room a t hroom] at hstep
  rw [bodyOf_predict_eq_takenOf] at hpredict
  exact ⟨_, _, _, _, _, hstep, hpredict, exec_of_ready (.update a t) hv hb hf, rfl, rfl, rfl, rfl,
    stepData_getLsbD_zero _ _ _, rfl, rfl, rfl, rfl, toNat_add_one_of_le hroom le_rfl⟩

/-! ### Training different entries -/

/-- What UPDATE (`counts = false`) and STEP (`counts = true`) do, the response aside. -/
def trainAndCount {p : Params} (counts : Bool) (a : Nat) (t : Bool) (e : Engine p) : Engine p :=
  { e.train a t with
    pred := e.pred + (if counts then 1 else 0)
    misp := e.misp + (if counts && takenOf (e.selected a) != t then 1 else 0)
    resp := none }

section Training
variable {p : Params} {e : Engine p}

theorem trainAndCount_misp (c : Bool) (a : Nat) (t : Bool) (e : Engine p) : (trainAndCount c a t e).misp =
    e.misp + (if c && takenOf (e.selected a) != t then 1 else 0) := rfl

/-- An engine is its elements and its two ports. -/
theorem eq_of_sameElements {e e' : Engine p} (h : SameElements e e') (hresp : e'.resp = e.resp)
    (hinputs : e'.inputs = e.inputs) : e' = e := by
  obtain ⟨htable, hghr, hpred, hmisp, hfault, hfcause, hbeenReset⟩ := h
  cases e
  cases e'
  simp_all

/-- R112, R125: a training command that does not fault. -/
theorem bodyOf_idle_of_trains {i : Instr} {a : Nat} {t : Bool} (hi : Trains i a t) (hf : (bodyOf i p e).fault = false) :
    (bodyOf i p e).idle = trainAndCount (isStep i) a t e.idle := by
  obtain rfl | rfl := hi
  · rw [bodyOf_update_eq_answer]
    simp [trainAndCount, isStep, Engine.idle, Engine.train]
  · have hroom : e.pred.toNat ≠ 2 ^ p.statW - 1 := fun hfull => by simp [bodyOf_step_of_full a t hfull] at hf
    rw [bodyOf_step_of_room a t hroom]
    rfl

/-- Two training commands that end unfaulted. -/
theorem idle_of_run_trains {i j : Instr} {a b : Nat} {t u : Bool} {e' : Engine p} (hi : Trains i a t) (hj : Trains j b u)
    (hrun : runCommands [i, j] ⟨p, e⟩ = .next ⟨p, e'⟩) (hf : e'.fault = false) :
    e'.idle = trainAndCount (isStep j) b u (trainAndCount (isStep i) a t e.idle) := by
  obtain ⟨-, -, -, hfirst, htail⟩ := runCommands_cons_unfaulted hrun hf
  obtain ⟨-, -, -, hsecond, hend⟩ := runCommands_cons_unfaulted htail hf
  obtain rfl : bodyOf j p (bodyOf i p e) = e' := by simpa [runCommands] using hend
  rw [bodyOf_idle_of_trains hj hsecond, bodyOf_idle_of_trains hi hfirst]

/-- A bump of another entry does not change what an address selects. -/
theorem selected_trainAndCount_of_ne (hk : p.kind = .bimodal) (ht : Memory.wf p.m e.table = true) {a b : Nat}
    (hab : abits p.m a ≠ abits p.m b) (c t : Bool) : (trainAndCount c a t e).selected b = e.selected b := by
  have hne : (idxBimodal p.m b).toNat ≠ (idxBimodal p.m a).toNat := mt BitVec.eq_of_toNat_eq hab.symm
  simp only [Engine.selected, trainAndCount, Engine.train, idx_of_bimodal _ _ hk]
  exact tblRead_tblBump_other ht t hne

theorem trainAndCount_table_comm (hk : p.kind = .bimodal) (ht : Memory.wf p.m e.table = true) {a b : Nat}
    (hab : abits p.m a ≠ abits p.m b) (c d t u : Bool) :
    (trainAndCount d b u (trainAndCount c a t e)).table = (trainAndCount c a t (trainAndCount d b u e)).table := by
  simp only [trainAndCount, Engine.train, idx_of_bimodal _ _ hk]
  exact tblBump_comm ht hab t u

/-- What a training command adds to MISP depends on the counter it selects, which the other one leaves. -/
theorem trainAndCount_misp_comm (hk : p.kind = .bimodal) (ht : Memory.wf p.m e.table = true) {a b : Nat}
    (hab : abits p.m a ≠ abits p.m b) (c d t u : Bool) :
    (trainAndCount d b u (trainAndCount c a t e)).misp = (trainAndCount c a t (trainAndCount d b u e)).misp := by
  rw [trainAndCount_misp, trainAndCount_misp, trainAndCount_misp, trainAndCount_misp,
    selected_trainAndCount_of_ne hk ht hab, selected_trainAndCount_of_ne hk ht hab.symm, add_right_comm]

/-- R117 (c): the bumps commute, a bimodal engine has no history, and the counts are sums. -/
theorem trainAndCount_comm (hk : p.kind = .bimodal) (hn : p.n = 0) (ht : Memory.wf p.m e.table = true) {a b : Nat}
    (hab : abits p.m a ≠ abits p.m b) (c d t u : Bool) :
    trainAndCount d b u (trainAndCount c a t e) = trainAndCount c a t (trainAndCount d b u e) :=
  eq_of_sameElements
    ⟨trainAndCount_table_comm hk ht hab c d t u, BitVec.eq_of_getLsbD_eq fun i hi => by omega, add_right_comm _ _ _,
      trainAndCount_misp_comm hk ht hab c d t u, rfl, rfl, rfl⟩ rfl rfl

end Training

/-- Settles O48: either order trains and counts twice, and a valid bimodal engine has no history. -/
theorem bimodalTrainingOfDifferentEntriesCommutes : Obligations.BimodalTrainingOfDifferentEntriesCommutes := by
  intro p e e1 e2 i j a b t u hk ht hab hi hj hrun1 hrun2 hf1 hf2
  obtain ⟨⟨-, -, -, -, hbimodal, -⟩, -⟩ := runCommands_cons_unfaulted hrun1 hf1
  calc e1.idle = trainAndCount (isStep j) b u (trainAndCount (isStep i) a t e.idle) := idle_of_run_trains hi hj hrun1 hf1
    _ = trainAndCount (isStep i) a t (trainAndCount (isStep j) b u e.idle) :=
      trainAndCount_comm (e := e.idle) hk (hbimodal hk) ht hab _ _ t u
    _ = e2.idle := (idle_of_run_trains hj hi hrun2 hf2).symm

/-! ### The final table -/

theorem mem_finalTable {s : State} {x : Nat × Counter} (hx : x ∈ finalTable s) :
    x.1 < 2 ^ s.params.m ∧ x.2 = tblRead s.engine.table x.1 := by
  obtain ⟨i, hi, rfl⟩ := List.mem_map.1 hx
  exact ⟨List.mem_range.1 hi, rfl⟩

/-- Settles O51: the pairs are read off the indices in order, and READ inside the table answers the counter. -/
theorem finalTableIsReadInAscendingOrder : Obligations.FinalTableIsReadInAscendingOrder := by
  refine fun s => ⟨?_, fun x hx ⟨hvalid, hreset⟩ hf => ?_⟩
  · rw [finalTable, List.map_map]
    exact List.map_id _
  · obtain ⟨hlt, hcounter⟩ := mem_finalTable hx
    rw [hcounter, ← bodyOf_read_of_lt s.engine hlt]
    exact exec_of_ready (.read x.1) hvalid hreset hf

end Sys2Proof.Proofs
end
